-- ==== Sys2Proof/Word.lean ====
section
/-! DEFINITION. Sys2Proof/Word.lean: the widths of the block's words (00_scope.md R6, 30_encoding.md R81). -/

namespace Sys2Proof

/-- A bus data word and every register: 32 bits (00_scope.md R6). -/
abbrev Word := BitVec 32

/-- A byte address of the bus: 16 bits (00_scope.md R6). -/
abbrev Addr := BitVec 16

/-- A message cell's contents: 8 bits (10_state.md R34). -/
abbrev Byte := BitVec 8

/-- A table word or an emitted sample: 16 bits, two's complement (10_state.md R35). -/
abbrev Sample := BitVec 16

/-- The transaction word X = {WE, ADDR, WDATA} of 49 bits (30_encoding.md R81). -/
abbrev Txn := BitVec 49

end Sys2Proof
end

