-- ==== Sys2Proof/Config.lean ====
section
/-! DEFINITION. Sys2Proof/Config.lean: the build parameters (00_scope.md R6) and which builds are legal (60_exceptions.md R234). -/

namespace Sys2Proof

/-- The three OPEN build parameters of 00_scope.md R6: the table `LUT_CONTENT`, whose length is `T`, and `MSG_CAP`.
A State carries its build, so a statement about every state is about every build (log entry 2). -/
structure Build where
  /-- `LUT_CONTENT[0], …, LUT_CONTENT[T-1]` (10_state.md R35). -/
  lut : List Sample
  /-- `MSG_CAP`, the message RAM's capacity in bytes (10_state.md R34). -/
  msgCap : Nat
deriving DecidableEq, Repr

/-- `T`, the number of table entries (register `LUT_LEN`). -/
abbrev Build.T (b : Build) : Nat := b.lut.length

/-- `M = T * 2^16`, the modulus of the phase accumulator (10_state.md R27). -/
def Build.M (b : Build) : Nat := b.T * 2 ^ 16

/-- The table is legal: 1 ≤ T ≤ 8192 and no word is -32768 (10_state.md R35, 60_exceptions.md R234). -/
def Build.lutLegal (b : Build) : Bool :=
  decide (1 ≤ b.T) && decide (b.T ≤ 8192) && b.lut.all (fun w => w != 0x8000#16)

/-- The capacity is legal: 1 ≤ MSG_CAP ≤ 4096 (60_exceptions.md R234). -/
def Build.capLegal (b : Build) : Bool :=
  decide (1 ≤ b.msgCap) && decide (b.msgCap ≤ 4096)

/-- A build this hardware may have. -/
def Build.legal (b : Build) : Bool := b.lutLegal && b.capLegal

/-- DESIGN CHOICE (log entry 2, unsafe): the build that State.reset carries, the one of 95_test_vectors.md section 0:
T = 4, LUT_CONTENT = [0, 32767, 0, -32767], MSG_CAP = 16. The spec leaves all three open; no statement rests on it. -/
def Config.resetBuild : Build where
  lut := [0x0000#16, 0x7FFF#16, 0x0000#16, 0x8001#16]
  msgCap := 16

end Sys2Proof
end

