-- ==== Sys2Proof/Machine/State.lean ====
section
/-! DEFINITION. Sys2Proof/Machine/State.lean: the block's state (10_state.md R20), how a model may stop (60_exceptions.md R234), and reset. -/

namespace Sys2Proof.Machine

/-- `state` of 10_state.md R22; the encoding 3 is never held, so it has no constructor. -/
inductive StreamState where
  | idle | run | done
deriving DecidableEq, Repr

/-- What arrives at the block's port, in the port's total order (20_memory.md R68): a transaction, or a reset between
two transactions (70_reset_and_hazards.md R250). -/
inductive PortEvent where
  | txn (x : Txn)
  | reset
deriving DecidableEq, Repr

/-- The message RAM: the cells written since reset, by cell number (10_state.md R34). An unlisted cell's `written` mark is
clear and it reads as no value (20_memory.md R73, log entry 7). -/
abbrev Memory := List Host.Cell

/-- The canonical form: cell numbers strictly rising. An unlisted cell reads as no value, so no entry equals that. -/
def Memory.wf : Memory → Bool
  | [] => true
  | [_] => true
  | c :: d :: rest => decide (c.1 < d.1) && Memory.wf (d :: rest)

/-- Every listed cell is below the RAM's capacity (10_state.md R34). -/
def Memory.below (cap : Nat) (m : Memory) : Bool := m.all (fun c => decide (c.1 < cap))

/-- The block's state: every component of 10_state.md R20, the port's read data (30_encoding.md R80) and the port events
still to come (log entries 1, 4). -/
structure State where
  /-- `LUT_CONTENT` and `MSG_CAP`, fixed for the machine (R30, R35). -/
  build : Build
  /-- `state` (R22). -/
  stream : StreamState
  /-- `FS`, `F0`, `F1`, `BAUD`, `TSTART_MS`, `TSTOP_MS` (R23). -/
  fs : Word
  f0 : Word
  f1 : Word
  baud : Word
  tstartMs : Word
  tstopMs : Word
  /-- `MSG_LEN` (R24). -/
  msgLen : Word
  /-- `PRE_SLOTS`, `POST_SLOTS`, `END_SLOT`, `STEP0`, `STEP1` (R25). -/
  preSlots : Word
  postSlots : Word
  endSlot : Word
  step0 : Word
  step1 : Word
  /-- `SLOT`, the counter i (R26). -/
  slot : Word
  /-- `PHASE`, the accumulator idx (R27). -/
  phase : Word
  /-- `ERR` (R28). -/
  err : Word
  /-- `ERR_INFO` (R29). -/
  errInfo : Word
  /-- The message RAM (R34). -/
  msg : Memory
  /-- `rdata` of the last transaction (30_encoding.md R80). -/
  rdata : Word
  /-- The port events still to come, oldest first: the model's own field. -/
  port : List PortEvent
deriving DecidableEq, Repr

/-- The model faults of 60_exceptions.md R234. -/
inductive Fault where
  /-- `UNWRITTEN_MSG`: raised by RD_MSG and by PULL's framer on a message cell not written since reset. Safe: the hardware
  returns some byte there, and the model claims nothing (20_memory.md R73). -/
  | unwrittenMsg
  /-- `FRAMER_INTERNAL`: raised by PULL's framer on a bit position outside 0..7 or a byte index ≥ L. Safe, and unreachable
  (42_bit_framer.md R177 (f)). -/
  | framerInternal
deriving DecidableEq, Repr

/-- The refusals of 60_exceptions.md R234, and the host's. -/
inductive Refusal where
  /-- An instruction without a meaning: raised by a refused arm of exec only; no arm is one. Safe. -/
  | notModelled (mnemonic : String)
  /-- `LUT_ILLEGAL`: raised by step on a build whose table is illegal, and by a table read past T. Safe. -/
  | lutIllegal
  /-- `CAP_ILLEGAL`: raised by step on a build whose MSG_CAP is illegal. Safe. -/
  | capIllegal
deriving DecidableEq, Repr

/-- One step's outcome. -/
abbrev Result := Host.Outcome State Fault Refusal

/-- The state after reset of the block with build `b` (70_reset_and_hazards.md R251), nothing pending at the port.
`rdata` = 0 there is DESIGN CHOICE (log entry 4). -/
def State.resetOf (b : Build) : State where
  build := b
  stream := .idle
  fs := 8000
  f0 := 1850
  f1 := 1650
  baud := 50
  tstartMs := 1000
  tstopMs := 1000
  msgLen := 0
  preSlots := 0
  postSlots := 0
  endSlot := 0
  step0 := 0
  step1 := 0
  slot := 0
  phase := 0
  err := 0
  errInfo := 0
  msg := []
  rdata := 0
  port := []

/-- The machine right after reset, with the build of log entry 2 (DESIGN CHOICE). -/
def State.reset : State := State.resetOf Config.resetBuild

end Sys2Proof.Machine
end

