-- ==== Sys2Proof/Machine/Flags.lean ====
section
/-! DEFINITION. Sys2Proof/Machine/Flags.lean: the flag words: ERR, ERR_INFO, STATUS (10_state.md R28, R29, R31) and the PULL response's
VALID and EOS (30_encoding.md R84). -/

namespace Sys2Proof.Machine

/-- The six error causes (60_exceptions.md R221). -/
inductive Cause where
  | addrErr | roErr | lockErr | cmdErr | cfgErr | pullErr
deriving DecidableEq, Repr

/-- The cause code, the flag's bit index in `ERR` (60_exceptions.md R221). -/
def Cause.code : Cause → BitVec 3
  | .addrErr => 0
  | .roErr => 1
  | .lockErr => 2
  | .cmdErr => 3
  | .cfgErr => 4
  | .pullErr => 5

/-- `1 << c` (60_exceptions.md R222). -/
def Cause.flag (c : Cause) : Word := 1#32 <<< c.code.toNat

/-- `{1'b1, 9'b0, reason[1:0], 1'b0, c[2:0], addr[15:0]}` (60_exceptions.md R222). -/
def errInfoWord (c : Cause) (reason : BitVec 2) (addr : Addr) : Word :=
  1#1 ++ 0#9 ++ reason ++ 0#1 ++ c.code ++ addr

/-- The encoding of `state` (10_state.md R22). -/
def StreamState.code : StreamState → BitVec 2
  | .idle => 0
  | .run => 1
  | .done => 2

/-- `STATUS` = {zext_29(0), ERR ≠ 0, state} (10_state.md R31, 40_register_access.md R103). -/
def statusWord (err : Word) (st : StreamState) : Word :=
  0#29 ++ BitVec.ofBool (err != 0) ++ st.code

/-- `ERR` as read: the six flags, zero-extended (40_register_access.md R104). -/
def errReadWord (err : Word) : Word := (err.extractLsb' 0 6).setWidth 32

/-- Write-1-to-clear: `ERR & ~zext_32(mask)` (40_register_access.md R105). -/
def errClear (err : Word) (mask : BitVec 6) : Word := err &&& ~~~(mask.setWidth 32)

/-- The PULL response that carries a sample: `VALID` = 1, `EOS` = 0 (30_encoding.md R84). -/
def sampleResponse (w : Sample) : Word := 0x00010000 ||| w.setWidth 32

/-- The PULL response at the end of a stream: `VALID` = 0, `EOS` = 1 (30_encoding.md R84). -/
def eosResponse : Word := 0x00020000

/-- The PULL response without a stream: `VALID` = `EOS` = 0 (30_encoding.md R84). -/
def noStreamResponse : Word := 0x00000000

end Sys2Proof.Machine
end

