-- ==== Sys2Proof/Syntax.lean ====
section
/-! DEFINITION. Sys2Proof/Syntax.lean: the transactions, one constructor per row of the opcode map (30_encoding.md R88), and the
registers of the register map (10_state.md R36). -/

namespace Sys2Proof

/-- The 22 registers of the register map (10_state.md R36), in its order. -/
inductive Reg where
  | id | status | err | errInfo | cmd
  | fs | f0 | f1 | baud | tstartMs | tstopMs | msgLen
  | lutLen | msgCap
  | preSlots | postSlots | endSlot | step0 | step1 | slot | phase
  | sample
deriving DecidableEq, Repr

/-- The 36 transactions of 30_encoding.md R88 with the operands R86 takes from them. Ignored fields (R90) are no operands. -/
inductive Instr where
  | rdId
  | rdStatus
  | rdErr
  /-- `mask` = WDATA[5:0] (R85). -/
  | wrErr (mask : BitVec 6)
  | rdErrInfo
  | rdCmd
  | cmdNop
  | cmdStart
  | cmdStop
  | rdFs
  | wrFs (value : Word)
  | rdF0
  | wrF0 (value : Word)
  | rdF1
  | wrF1 (value : Word)
  | rdBaud
  | wrBaud (value : Word)
  | rdTstartMs
  | wrTstartMs (value : Word)
  | rdTstopMs
  | wrTstopMs (value : Word)
  | rdMsgLen
  | wrMsgLen (value : Word)
  | rdLutLen
  | rdMsgCap
  | rdPreSlots
  | rdPostSlots
  | rdEndSlot
  | rdStep0
  | rdStep1
  | rdSlot
  | rdPhase
  | pull
  /-- `n` = ADDR[13:2], the cell index. -/
  | rdMsg (n : BitVec 12)
  /-- `n` = ADDR[13:2], `byte` = WDATA[7:0]. -/
  | wrMsg (n : BitVec 12) (byte : Byte)
  /-- `n` = ADDR[14:2], the table index. -/
  | rdLut (n : BitVec 13)
deriving DecidableEq, Repr

end Sys2Proof
end

