-- ==== Sys2Proof/Decode.lean ====
section
/-! DEFINITION. Sys2Proof/Decode.lean: the decoder of 30_encoding.md R87, total on every 49-bit word, and the encoder. -/

namespace Sys2Proof

/-! ## The fields of X (30_encoding.md R81) -/

/-- `WE` = X[48]. -/
def txnWe (x : Txn) : Bool := x.getLsbD 48

/-- `ADDR` = X[47:32]. -/
def txnAddr (x : Txn) : Addr := x.extractLsb' 32 16

/-- `WDATA` = X[31:0]. -/
def txnData (x : Txn) : Word := x.extractLsb' 0 32

/-- X = {WE, ADDR, WDATA}. -/
def mkTxn (we : Bool) (addr : Addr) (data : Word) : Txn := BitVec.ofBool we ++ addr ++ data

/-! ## The register map (10_state.md R36) -/

/-- Every register of the map. -/
def Reg.all : List Reg :=
  [.id, .status, .err, .errInfo, .cmd, .fs, .f0, .f1, .baud, .tstartMs, .tstopMs, .msgLen] ++
  [.lutLen, .msgCap, .preSlots, .postSlots, .endSlot, .step0, .step1, .slot, .phase, .sample]

/-- The register's offset in the register block. -/
def Reg.offset : Reg → BitVec 14
  | .id => 0x0000 | .status => 0x0004 | .err => 0x0008 | .errInfo => 0x000C | .cmd => 0x0010
  | .fs => 0x0020 | .f0 => 0x0024 | .f1 => 0x0028 | .baud => 0x002C
  | .tstartMs => 0x0030 | .tstopMs => 0x0034 | .msgLen => 0x0038
  | .lutLen => 0x0040 | .msgCap => 0x0044
  | .preSlots => 0x0050 | .postSlots => 0x0054 | .endSlot => 0x0058 | .step0 => 0x005C
  | .step1 => 0x0060 | .slot => 0x0064 | .phase => 0x0068 | .sample => 0x0070

/-- The register at an offset, if the map lists one. -/
def Reg.ofOffset (off : BitVec 14) : Option Reg := Reg.all.find? (fun r => r.offset == off)

/-- The bus address of a register: ADDR[15:14] = 00 (30_encoding.md R82). -/
def Reg.addr (r : Reg) : Addr := 0#2 ++ r.offset

/-- The bus address of message cell n, 0x4000 + 4n (30_encoding.md R82, R88). -/
def msgAddr (n : BitVec 12) : Addr := 1#2 ++ n ++ 0#2

/-- The bus address of table word n, 0x8000 + 4n (30_encoding.md R82, R88). -/
def lutAddr (n : BitVec 13) : Addr := 1#1 ++ n ++ 0#2

/-! ## Decoding (30_encoding.md R87) -/

/-- Why a transaction is no row of the opcode map (30_encoding.md R89). A table write keeps its index, because
whether it is unmapped or read-only depends on T; likewise a window row whose index is too large is found so where the
window is accessed (log entry 8). -/
inductive IllegalAccess where
  | misaligned
  | unmappedOffset
  | readOnlyRegister
  | tableWrite (n : BitVec 13)
  | reservedCommand
deriving DecidableEq, Repr

/-- What a word decodes to. -/
inductive Decoded where
  | instr (i : Instr)
  | illegal (e : IllegalAccess)
deriving DecidableEq, Repr

/-- The read row of a register; the read of `SAMPLE` is PULL. -/
def decodeRead : Reg → Instr
  | .id => .rdId | .status => .rdStatus | .err => .rdErr | .errInfo => .rdErrInfo | .cmd => .rdCmd
  | .fs => .rdFs | .f0 => .rdF0 | .f1 => .rdF1 | .baud => .rdBaud
  | .tstartMs => .rdTstartMs | .tstopMs => .rdTstopMs | .msgLen => .rdMsgLen
  | .lutLen => .rdLutLen | .msgCap => .rdMsgCap
  | .preSlots => .rdPreSlots | .postSlots => .rdPostSlots | .endSlot => .rdEndSlot
  | .step0 => .rdStep0 | .step1 => .rdStep1 | .slot => .rdSlot | .phase => .rdPhase
  | .sample => .pull

/-- The command a CMDW word selects (30_encoding.md R83, 41_commands.md R150). -/
def decodeCommand (d : Word) : Decoded :=
  if d.extractLsb' 4 28 ≠ 0 then .illegal .reservedCommand
  else if d.extractLsb' 0 4 = 0 then .instr .cmdNop
  else if d.extractLsb' 0 4 = 1 then .instr .cmdStart
  else if d.extractLsb' 0 4 = 2 then .instr .cmdStop
  else .illegal .reservedCommand

/-- The write row of a register, or the refusal of a write to a read-only one. -/
def decodeWrite (d : Word) : Reg → Decoded
  | .cmd => decodeCommand d
  | .err => .instr (.wrErr (d.extractLsb' 0 6))
  | .fs => .instr (.wrFs d)
  | .f0 => .instr (.wrF0 d)
  | .f1 => .instr (.wrF1 d)
  | .baud => .instr (.wrBaud d)
  | .tstartMs => .instr (.wrTstartMs d)
  | .tstopMs => .instr (.wrTstopMs d)
  | .msgLen => .instr (.wrMsgLen d)
  | .id | .status | .errInfo | .lutLen | .msgCap | .preSlots | .postSlots | .endSlot
  | .step0 | .step1 | .slot | .phase | .sample => .illegal .readOnlyRegister

/-- `decode(WE, ADDR, WDATA)` of 30_encoding.md R87. -/
def decodeFields (we : Bool) (addr : Addr) (data : Word) : Decoded :=
  if addr.extractLsb' 0 2 ≠ 0 then .illegal .misaligned
  else if addr.getLsbD 15 then
    if we then .illegal (.tableWrite (addr.extractLsb' 2 13))
    else .instr (.rdLut (addr.extractLsb' 2 13))
  else if addr.getLsbD 14 then
    if we then .instr (.wrMsg (addr.extractLsb' 2 12) (data.extractLsb' 0 8))
    else .instr (.rdMsg (addr.extractLsb' 2 12))
  else
    match Reg.ofOffset (addr.extractLsb' 0 14) with
    | none => .illegal .unmappedOffset
    | some r => if we then decodeWrite data r else .instr (decodeRead r)

/-- The decoder on the transaction word. -/
def decode (x : Txn) : Decoded := decodeFields (txnWe x) (txnAddr x) (txnData x)

/-- The host's numbering is X's own: bit 0 is X[0]. The row takes 49 bits of the 56 that whole bytes give it; a word
with a bit above X[48] is no transaction (log entry 14). -/
def decodeTableWord (nbits w : Nat) : Option Instr :=
  let v := w % 2 ^ nbits
  if v < 2 ^ 49 then
    match decode (BitVec.ofNat 49 v) with
    | .instr i => some i
    | .illegal _ => none
  else none

/-! ## Encoding (30_encoding.md R81, R88) -/

/-- `WE` of the row. -/
def Instr.isWrite : Instr → Bool
  | .wrErr _ | .cmdNop | .cmdStart | .cmdStop | .wrFs _ | .wrF0 _ | .wrF1 _ | .wrBaud _ | .wrTstartMs _
  | .wrTstopMs _ | .wrMsgLen _ | .wrMsg _ _ => true
  | .rdId | .rdStatus | .rdErr | .rdErrInfo | .rdCmd | .rdFs | .rdF0 | .rdF1 | .rdBaud | .rdTstartMs
  | .rdTstopMs | .rdMsgLen | .rdLutLen | .rdMsgCap | .rdPreSlots | .rdPostSlots | .rdEndSlot | .rdStep0
  | .rdStep1 | .rdSlot | .rdPhase | .pull | .rdMsg _ | .rdLut _ => false

/-- `ADDR` of the row. -/
def Instr.addr : Instr → Addr
  | .rdId => Reg.id.addr
  | .rdStatus => Reg.status.addr
  | .rdErr | .wrErr _ => Reg.err.addr
  | .rdErrInfo => Reg.errInfo.addr
  | .rdCmd | .cmdNop | .cmdStart | .cmdStop => Reg.cmd.addr
  | .rdFs | .wrFs _ => Reg.fs.addr
  | .rdF0 | .wrF0 _ => Reg.f0.addr
  | .rdF1 | .wrF1 _ => Reg.f1.addr
  | .rdBaud | .wrBaud _ => Reg.baud.addr
  | .rdTstartMs | .wrTstartMs _ => Reg.tstartMs.addr
  | .rdTstopMs | .wrTstopMs _ => Reg.tstopMs.addr
  | .rdMsgLen | .wrMsgLen _ => Reg.msgLen.addr
  | .rdLutLen => Reg.lutLen.addr
  | .rdMsgCap => Reg.msgCap.addr
  | .rdPreSlots => Reg.preSlots.addr
  | .rdPostSlots => Reg.postSlots.addr
  | .rdEndSlot => Reg.endSlot.addr
  | .rdStep0 => Reg.step0.addr
  | .rdStep1 => Reg.step1.addr
  | .rdSlot => Reg.slot.addr
  | .rdPhase => Reg.phase.addr
  | .pull => Reg.sample.addr
  | .rdMsg n | .wrMsg n _ => msgAddr n
  | .rdLut n => lutAddr n

/-- `WDATA` of the row in its canonical form: 0 in every ignored bit (30_encoding.md R81, R90). -/
def Instr.data : Instr → Word
  | .wrErr mask => mask.setWidth 32
  | .cmdNop => 0x00000000
  | .cmdStart => 0x00000001
  | .cmdStop => 0x00000002
  | .wrFs v | .wrF0 v | .wrF1 v | .wrBaud v | .wrTstartMs v | .wrTstopMs v | .wrMsgLen v => v
  | .wrMsg _ byte => byte.setWidth 32
  | .rdId | .rdStatus | .rdErr | .rdErrInfo | .rdCmd | .rdFs | .rdF0 | .rdF1 | .rdBaud | .rdTstartMs
  | .rdTstopMs | .rdMsgLen | .rdLutLen | .rdMsgCap | .rdPreSlots | .rdPostSlots | .rdEndSlot | .rdStep0
  | .rdStep1 | .rdSlot | .rdPhase | .pull | .rdMsg _ | .rdLut _ => 0

/-- The word X of an instruction. -/
def encode (i : Instr) : Txn := mkTxn i.isWrite i.addr i.data

end Sys2Proof
end

