-- ==== Sys2Proof/Machine/Operands.lean ====
section
/-! DEFINITION. Sys2Proof/Machine/Operands.lean: the operand forms of 30_encoding.md R86 that the decoder has not already cut out of X, and
the exact arithmetic of 00_scope.md R8 and R9. -/

namespace Sys2Proof.Machine

/-- `zext_32(byte)` of a message read. -/
def byteWord (v : Byte) : Word := v.setWidth 32

/-- `zext_32(word16)` of a table read. -/
def tableWord (w : Sample) : Word := w.setWidth 32

/-- A constant register's value: a Nat below 2^32 as 32 bits (10_state.md R30). -/
def constWord (n : Nat) : Word := BitVec.ofNat 32 n

/-- `rne(n, d)`: n/d rounded to the nearest integer, ties to even, exactly (00_scope.md R9). -/
def rne (n d : Nat) : Nat :=
  let q := n / d
  let r := n % d
  if 2 * r > d then q + 1
  else if 2 * r < d then q
  else q + q % 2

/-- Slots of a duration: floor(ms * baud / 1000), the product exact (41_commands.md R153). -/
def slotCount (ms baud : Word) : Nat := ms.toNat * baud.toNat / 1000

/-- `END = P + 10 * L + Q`, exact (41_commands.md R154). -/
def timelineLength (p len q : Nat) : Nat := p + 10 * len + q

/-- `rne(F * T * 2^16, FS) mod M` (41_commands.md R155). -/
def phaseStep (b : Build) (f fs : Word) : Nat := rne (f.toNat * b.T * 2 ^ 16) fs.toNat % b.M

/-- `(idx + step) mod M` (43_nco_lut.md R195). -/
def nextPhase (b : Build) (idx step : Word) : Nat := (idx.toNat + step.toNat) % b.M

/-- `k = idx div 2^16` (43_nco_lut.md R196). -/
def tableIndex (idx : Nat) : Nat := idx / 2 ^ 16

end Sys2Proof.Machine
end

