-- ==== Sys2Proof/Machine/Ops.lean ====
section
/-! DEFINITION. Sys2Proof/Machine/Ops.lean: the shared operations: the message RAM, the table ROM, a response, raise Error, the locked write,
reset, and the refusal of an illegal build. -/

namespace Sys2Proof.Machine

/-! ## Storage (00_scope.md R10) -/

/-- `MsgRead(n)`; none where the cell's `written` mark is clear (20_memory.md R73). -/
def Memory.read : Memory → Nat → Option Byte
  | [], _ => none
  | (a, v) :: rest, n => if n = a then some v else Memory.read rest n

/-- `MsgWrite(n, v); written[n] <- 1` (40_register_access.md R132), in the canonical form. -/
def Memory.write : Memory → Nat → Byte → Memory
  | [], n, v => [(n, v)]
  | (a, w) :: rest, n, v =>
    if n < a then (n, v) :: (a, w) :: rest
    else if n = a then (n, v) :: rest
    else (a, w) :: Memory.write rest n v

/-- `LutRead(k)`, for k < T (00_scope.md R10). -/
def lutRead (b : Build) (k : Nat) : Option Sample := b.lut[k]?

/-! ## Responses and errors -/

/-- `respond(v)`; 0 after a write (30_encoding.md R80, R87). -/
def State.respond (s : State) (v : Word) : State := { s with rdata := v }

/-- `raise Error(c, reason)` of a transaction to `addr` (60_exceptions.md R222): ERR_INFO captures the error if no flag was set
just before, and the flag is set. Nothing else changes; there is no trap and no return (R220, R225). -/
def State.raiseError (s : State) (c : Cause) (reason : BitVec 2) (addr : Addr) : State :=
  { s with
    errInfo := if s.err = 0 then errInfoWord c reason addr else s.errInfo
    err := s.err ||| c.flag }

/-- A transaction that ends with an error and `rdata` = 0 (30_encoding.md R87, R89). -/
def failWith (c : Cause) (reason : BitVec 2) (addr : Addr) (s : State) : Result :=
  .next ((s.raiseError c reason addr).respond 0)

/-- A read that only answers a value (40_register_access.md R100). -/
def answer (v : Word) (s : State) : Result := .next (s.respond v)

/-- A write that completes: the new state with `rdata` = 0 (30_encoding.md R80). -/
def written (s : State) : Result := .next (s.respond 0)

/-- The common pattern of a configuration or message write (40_register_access.md R101): refused with LOCK_ERR while
`state` = RUN, else the target is written. `s'` is `s` with the target written. -/
def lockedWrite (addr : Addr) (s s' : State) : Result :=
  if s.stream = .run then failWith .lockErr 0 addr s else written s'

/-! ## Reset (70_reset_and_hazards.md R250 to R252) -/

/-- Reset between two transactions: every register at its reset value, every `written` mark cleared, the ROM unaffected.
The events still to come at the port stay to come (log entry 6). -/
def State.takeReset (s : State) : State := { State.resetOf s.build with port := s.port }

/-! ## The build (60_exceptions.md R234) -/

/-- The refusal of an illegal build. -/
def buildRefusal (b : Build) : Option Refusal :=
  if b.lutLegal = false then some .lutIllegal
  else if b.capLegal = false then some .capIllegal
  else none

end Sys2Proof.Machine
end

