-- ==== Sys2Proof/Machine/Commands.lean ====
section
/-! DEFINITION. Sys2Proof/Machine/Commands.lean: the commands (41_commands.md R151 to R156). -/

namespace Sys2Proof.Machine

/-- CMD_NOP (R151): nothing, in every state. -/
def execCmdNop (s : State) : Result := written s

/-- The latching of an accepted START (R152): the five stream constants, i and idx at 0, RUN. The values fit their
registers on a legal build (log entry 16). -/
def State.startStream (s : State) : State :=
  let p := slotCount s.tstartMs s.baud
  let q := slotCount s.tstopMs s.baud
  { s with
    preSlots := BitVec.ofNat 32 p
    postSlots := BitVec.ofNat 32 q
    endSlot := BitVec.ofNat 32 (timelineLength p s.msgLen.toNat q)
    step0 := BitVec.ofNat 32 (phaseStep s.build s.f0 s.fs)
    step1 := BitVec.ofNat 32 (phaseStep s.build s.f1 s.fs)
    slot := 0
    phase := 0
    stream := .run }

/-- CMD_START (R152), the tests in the rule's order. -/
def execCmdStart (s : State) : Result :=
  if s.stream = .run then failWith .cmdErr 0 Reg.cmd.addr s
  else if s.fs = 0 then failWith .cfgErr 1 Reg.cmd.addr s
  else if s.msgLen.toNat > s.build.msgCap then failWith .cfgErr 2 Reg.cmd.addr s
  else if timelineLength (slotCount s.tstartMs s.baud) s.msgLen.toNat (slotCount s.tstopMs s.baud) > 2 ^ 32 - 1 then
    failWith .cfgErr 3 Reg.cmd.addr s
  else written s.startStream

/-- CMD_STOP (R156): RUN to DONE, no effect in DONE, CMD_ERR in IDLE. -/
def execCmdStop (s : State) : Result :=
  match s.stream with
  | .idle => failWith .cmdErr 0 Reg.cmd.addr s
  | .run => written { s with stream := .done }
  | .done => written s

end Sys2Proof.Machine
end

