-- ==== Sys2Proof/Machine/ConfigRegs.lean ====
section
/-! DEFINITION. Sys2Proof/Machine/ConfigRegs.lean: the configuration registers' rows (40_register_access.md R101, R108 to R121). -/

namespace Sys2Proof.Machine

/-- RD_FS (R108). -/
def execRdFs (s : State) : Result := answer s.fs s

/-- WR_FS (R109). -/
def execWrFs (v : Word) (s : State) : Result := lockedWrite Reg.fs.addr s { s with fs := v }

/-- RD_F0 (R110). -/
def execRdF0 (s : State) : Result := answer s.f0 s

/-- WR_F0 (R111). -/
def execWrF0 (v : Word) (s : State) : Result := lockedWrite Reg.f0.addr s { s with f0 := v }

/-- RD_F1 (R112). -/
def execRdF1 (s : State) : Result := answer s.f1 s

/-- WR_F1 (R113). -/
def execWrF1 (v : Word) (s : State) : Result := lockedWrite Reg.f1.addr s { s with f1 := v }

/-- RD_BAUD (R114). -/
def execRdBaud (s : State) : Result := answer s.baud s

/-- WR_BAUD (R115). -/
def execWrBaud (v : Word) (s : State) : Result := lockedWrite Reg.baud.addr s { s with baud := v }

/-- RD_TSTART_MS (R116). -/
def execRdTstartMs (s : State) : Result := answer s.tstartMs s

/-- WR_TSTART_MS (R117). -/
def execWrTstartMs (v : Word) (s : State) : Result := lockedWrite Reg.tstartMs.addr s { s with tstartMs := v }

/-- RD_TSTOP_MS (R118). -/
def execRdTstopMs (s : State) : Result := answer s.tstopMs s

/-- WR_TSTOP_MS (R119). -/
def execWrTstopMs (v : Word) (s : State) : Result := lockedWrite Reg.tstopMs.addr s { s with tstopMs := v }

/-- RD_MSG_LEN (R120). -/
def execRdMsgLen (s : State) : Result := answer s.msgLen s

/-- WR_MSG_LEN (R121): every value is accepted; CMD_START refuses one above MSG_CAP. -/
def execWrMsgLen (v : Word) (s : State) : Result := lockedWrite Reg.msgLen.addr s { s with msgLen := v }

end Sys2Proof.Machine
end

