-- ==== Sys2Proof/Machine/Framer.lean ====
section
/-! DEFINITION. Sys2Proof/Machine/Framer.lean: the bit framer (42_bit_framer.md R170 to R177), a pure function of the state and the slot. -/

namespace Sys2Proof.Machine

/-- What `frame(i)` gives: the pair (bit, done) of R170, or a model fault. -/
inductive Framed where
  | slot (bit done : Bool)
  | fault (f : Fault)
deriving DecidableEq, Repr

/-- Data bit `p` of message byte `b`, LSB first (R174), with L message bytes. A bit position or a byte index outside the frame is
FRAMER_INTERNAL (60_exceptions.md R234), a cell not written UNWRITTEN_MSG. -/
def dataBit (m : Memory) (len b p : Nat) : Framed :=
  if p > 7 ∨ b ≥ len then .fault .framerInternal
  else
    match m.read b with
    | some v => .slot (v.getLsbD p) false
    | none => .fault .unwrittenMsg

/-- The slot `j` of the frames region (R174): start bit, data bits, stop bit. -/
def frameSlot (m : Memory) (len j : Nat) : Framed :=
  let b := j / 10
  let pos := j % 10
  if pos = 0 then .slot false false
  else if pos = 9 then .slot true false
  else dataBit m len b (pos - 1)

/-- `frame(i)` (R176). -/
def frame (s : State) (i : Nat) : Framed :=
  let p := s.preSlots.toNat
  let len := s.msgLen.toNat
  if i < p then .slot true false
  else if i ≥ s.endSlot.toNat then .slot false true
  else if i - p < 10 * len then frameSlot s.msg len (i - p)
  else .slot true false

end Sys2Proof.Machine
end

