-- ==== Sys2Proof/Machine/Nco.lean ====
section
/-! DEFINITION. Sys2Proof/Machine/Nco.lean: the pull (43_nco_lut.md R190 to R197). -/

namespace Sys2Proof.Machine

/-- The step of a slot's bit: STEP1 for 1, STEP0 for 0 (R194). -/
def State.stepFor (s : State) (bit : Bool) : Word := if bit then s.step1 else s.step0

/-- A produced sample (R190, source steps 2 to 6): i is incremented, then the accumulator is advanced, then the table is read.
A table index past T exists on no legal build (R196); it is refused as LUT_ILLEGAL (log entry 16). -/
def produceSample (bit : Bool) (s : State) : Result :=
  let idx := nextPhase s.build s.phase (s.stepFor bit)
  match lutRead s.build (tableIndex idx) with
  | some w => answer (sampleResponse w) { s with slot := s.slot + 1, phase := BitVec.ofNat 32 idx }
  | none => .refused .lutIllegal

/-- The pull of a running stream (R190, R193). -/
def pullRunning (s : State) : Result :=
  match frame s s.slot.toNat with
  | .fault f => .fault f
  | .slot _ true => answer eosResponse { s with stream := .done }
  | .slot bit false => produceSample bit s

/-- PULL (R190 to R193). -/
def execPull (s : State) : Result :=
  match s.stream with
  | .idle => .next ((s.raiseError .pullErr 0 Reg.sample.addr).respond noStreamResponse)
  | .done => answer eosResponse s
  | .run => pullRunning s

end Sys2Proof.Machine
end

