-- ==== Sys2Proof/Machine/Status.lean ====
section
/-! DEFINITION. Sys2Proof/Machine/Status.lean: the identity, status, error and command-port rows (40_register_access.md R102 to R107). -/

namespace Sys2Proof.Machine

/-- RD_ID (R102): the constant of 10_state.md R30. -/
def execRdId (s : State) : Result := answer 0x46534B4D s

/-- RD_STATUS (R103). -/
def execRdStatus (s : State) : Result := answer (statusWord s.err s.stream) s

/-- RD_ERR (R104). -/
def execRdErr (s : State) : Result := answer (errReadWord s.err) s

/-- WR_ERR (R105): write-1-to-clear; `ERR_INFO` is not changed. -/
def execWrErr (mask : BitVec 6) (s : State) : Result := written { s with err := errClear s.err mask }

/-- RD_ERR_INFO (R106). -/
def execRdErrInfo (s : State) : Result := answer s.errInfo s

/-- RD_CMD (R107): 0, no error. -/
def execRdCmd (s : State) : Result := answer 0 s

end Sys2Proof.Machine
end

