-- ==== Sys2Proof/Machine/StreamRegs.lean ====
section
/-! DEFINITION. Sys2Proof/Machine/StreamRegs.lean: the reads of the constant, stream-constant and streaming registers (40_register_access.md
R122 to R130). -/

namespace Sys2Proof.Machine

/-- RD_LUT_LEN (R122): T. -/
def execRdLutLen (s : State) : Result := answer (constWord s.build.T) s

/-- RD_MSG_CAP (R123): MSG_CAP. -/
def execRdMsgCap (s : State) : Result := answer (constWord s.build.msgCap) s

/-- RD_PRE_SLOTS (R124). -/
def execRdPreSlots (s : State) : Result := answer s.preSlots s

/-- RD_POST_SLOTS (R125). -/
def execRdPostSlots (s : State) : Result := answer s.postSlots s

/-- RD_END_SLOT (R126). -/
def execRdEndSlot (s : State) : Result := answer s.endSlot s

/-- RD_STEP0 (R127). -/
def execRdStep0 (s : State) : Result := answer s.step0 s

/-- RD_STEP1 (R128). -/
def execRdStep1 (s : State) : Result := answer s.step1 s

/-- RD_SLOT (R129). -/
def execRdSlot (s : State) : Result := answer s.slot s

/-- RD_PHASE (R130). -/
def execRdPhase (s : State) : Result := answer s.phase s

end Sys2Proof.Machine
end

