-- ==== Sys2Proof/Machine/Windows.lean ====
section
/-! DEFINITION. Sys2Proof/Machine/Windows.lean: the message and table windows (20_memory.md R63, R64). -/

namespace Sys2Proof.Machine

/-- RD_MSG (40_register_access.md R131): ADDR_ERR past MSG_CAP (20_memory.md R63), the model fault UNWRITTEN_MSG on a cell not
written since reset (20_memory.md R73), else the byte. -/
def execRdMsg (n : BitVec 12) (s : State) : Result :=
  if n.toNat < s.build.msgCap then
    match s.msg.read n.toNat with
    | some v => answer (byteWord v) s
    | none => .fault .unwrittenMsg
  else failWith .addrErr 0 (msgAddr n) s

/-- WR_MSG (40_register_access.md R132): ADDR_ERR past MSG_CAP beats the lock (60_exceptions.md R223). -/
def execWrMsg (n : BitVec 12) (byte : Byte) (s : State) : Result :=
  if n.toNat < s.build.msgCap then
    lockedWrite (msgAddr n) s { s with msg := s.msg.write n.toNat byte }
  else failWith .addrErr 0 (msgAddr n) s

/-- RD_LUT (43_nco_lut.md R200): ADDR_ERR past T (20_memory.md R64). -/
def execRdLut (n : BitVec 13) (s : State) : Result :=
  match lutRead s.build n.toNat with
  | some w => answer (tableWord w) s
  | none => failWith .addrErr 0 (lutAddr n) s

end Sys2Proof.Machine
end

