-- ==== Sys2Proof/Machine/Dispatch.lean ====
section
/-! DEFINITION. Sys2Proof/Machine/Dispatch.lean: one arm per transaction, each one call of its meaning. -/

namespace Sys2Proof.Machine

def exec (i : Instr) (s : State) : Host.Outcome State Fault Refusal :=
  match i with
  | .rdId => Sys2Proof.Machine.execRdId s
  | .rdStatus => Sys2Proof.Machine.execRdStatus s
  | .rdErr => Sys2Proof.Machine.execRdErr s
  | .wrErr mask => Sys2Proof.Machine.execWrErr mask s
  | .rdErrInfo => Sys2Proof.Machine.execRdErrInfo s
  | .rdCmd => Sys2Proof.Machine.execRdCmd s
  | .cmdNop => Sys2Proof.Machine.execCmdNop s
  | .cmdStart => Sys2Proof.Machine.execCmdStart s
  | .cmdStop => Sys2Proof.Machine.execCmdStop s
  | .rdFs => Sys2Proof.Machine.execRdFs s
  | .wrFs value => Sys2Proof.Machine.execWrFs value s
  | .rdF0 => Sys2Proof.Machine.execRdF0 s
  | .wrF0 value => Sys2Proof.Machine.execWrF0 value s
  | .rdF1 => Sys2Proof.Machine.execRdF1 s
  | .wrF1 value => Sys2Proof.Machine.execWrF1 value s
  | .rdBaud => Sys2Proof.Machine.execRdBaud s
  | .wrBaud value => Sys2Proof.Machine.execWrBaud value s
  | .rdTstartMs => Sys2Proof.Machine.execRdTstartMs s
  | .wrTstartMs value => Sys2Proof.Machine.execWrTstartMs value s
  | .rdTstopMs => Sys2Proof.Machine.execRdTstopMs s
  | .wrTstopMs value => Sys2Proof.Machine.execWrTstopMs value s
  | .rdMsgLen => Sys2Proof.Machine.execRdMsgLen s
  | .wrMsgLen value => Sys2Proof.Machine.execWrMsgLen value s
  | .rdLutLen => Sys2Proof.Machine.execRdLutLen s
  | .rdMsgCap => Sys2Proof.Machine.execRdMsgCap s
  | .rdPreSlots => Sys2Proof.Machine.execRdPreSlots s
  | .rdPostSlots => Sys2Proof.Machine.execRdPostSlots s
  | .rdEndSlot => Sys2Proof.Machine.execRdEndSlot s
  | .rdStep0 => Sys2Proof.Machine.execRdStep0 s
  | .rdStep1 => Sys2Proof.Machine.execRdStep1 s
  | .rdSlot => Sys2Proof.Machine.execRdSlot s
  | .rdPhase => Sys2Proof.Machine.execRdPhase s
  | .pull => Sys2Proof.Machine.execPull s
  | .rdMsg n => Sys2Proof.Machine.execRdMsg n s
  | .wrMsg n byte => Sys2Proof.Machine.execWrMsg n byte s
  | .rdLut n => Sys2Proof.Machine.execRdLut n s

end Sys2Proof.Machine
end

