-- ==== Sys2Proof/Machine/Port.lean ====
section
/-! DEFINITION. Sys2Proof/Machine/Port.lean: one transaction and one port event (20_memory.md R67, R68; 30_encoding.md R87, R89). -/

namespace Sys2Proof.Machine

/-- The one error an illegal transaction raises (30_encoding.md R89, in the order of 60_exceptions.md R223). A write to the table
window is unmapped past T, read-only below (20_memory.md R64). -/
def illegalCause (b : Build) : IllegalAccess → Cause
  | .misaligned => .addrErr
  | .unmappedOffset => .addrErr
  | .readOnlyRegister => .roErr
  | .tableWrite n => if n.toNat < b.T then .roErr else .addrErr
  | .reservedCommand => .cmdErr

/-- One transaction (30_encoding.md R87): the row's effect, or the error and nothing else. -/
def perform (x : Txn) (s : State) : Result :=
  match decode x with
  | .instr i => exec i s
  | .illegal e => failWith (illegalCause s.build e) 0 (txnAddr x) s

/-- The next port event, in the port's order (20_memory.md R68). With none pending nothing happens: the block never acts on its
own (60_exceptions.md R228, log entry 5). -/
def handleEvent (s : State) : Result :=
  match s.port with
  | [] => .next s
  | .reset :: rest => .next { s with port := rest }.takeReset
  | .txn x :: rest => perform x { s with port := rest }

/-- The word of `nbits` bits `w`, as X (log entry 14). -/
def wordOfBits (nbits w : Nat) : Txn := BitVec.ofNat 49 (w % 2 ^ nbits)

end Sys2Proof.Machine
end

