-- ==== Sys2Proof/Machine/Step.lean ====
section
/-! DEFINITION. Sys2Proof/Machine/Step.lean: one step of the machine: an illegal build is refused (60_exceptions.md R234), else the next port
event is handled. -/

namespace Sys2Proof.Machine

/-- One step. -/
def step (s : State) : Host.Outcome State Fault Refusal :=
  match buildRefusal s.build with
  | some r => .refused r
  | none => handleEvent s

/-- `s` with the transaction of bits `w` as its next port event (log entry 1). -/
def State.withFetchWord (s : State) (nbits w : Nat) : State :=
  { s with port := .txn (wordOfBits nbits w) :: s.port }

end Sys2Proof.Machine
end

