-- ==== Sys2Proof/Machine/Assembler.lean ====
section
/-! DEFINITION. Sys2Proof/Machine/Assembler.lean: the assembler lines of 30_encoding.md R93 and the pseudo-instructions of R94, as a function
from a line to the transaction words it stands for. -/

namespace Sys2Proof.Machine

/-- One line of a test program. Numbers are as written: a line whose number does not fit is an assembly error (R93). -/
inductive Line where
  /-- `RD <REG>` -/
  | rd (r : Reg)
  /-- `WR <REG>, <imm>` -/
  | wr (r : Reg) (imm : Nat)
  /-- `CMD NOP`, `CMD START`, `CMD STOP` -/
  | cmdNop
  | cmdStart
  | cmdStop
  /-- `PULL` -/
  | pull
  /-- `RDMSG <n>` -/
  | rdMsg (n : Nat)
  /-- `WRMSG <n>, <imm8>` -/
  | wrMsg (n imm8 : Nat)
  /-- `RDLUT <n>` -/
  | rdLut (n : Nat)
  /-- `RAW <hex49>` -/
  | raw (x : Nat)
  /-- `CLRERR` -/
  | clrErr
  /-- `LOADMSG "<text>"` -/
  | loadMsg (text : List Char)
  /-- `PULLN <c>` -/
  | pullN (c : Nat)
  /-- `CONFIG fs, f0, f1, baud, tstart, tstop` -/
  | config (fs f0 f1 baud tstart tstop : Nat)
deriving DecidableEq, Repr

/-- `WR <REG>, <imm>` with imm below 2^32 (R93). -/
def asmWrite (r : Reg) (imm : Nat) : Option Txn :=
  if imm < 2 ^ 32 then some (mkTxn true r.addr (BitVec.ofNat 32 imm)) else none

/-- `WRMSG n, imm8`: a cell of the RAM and a byte (R93; log entry 15 on a larger byte). -/
def asmWriteMsg (b : Build) (n imm8 : Nat) : Option Txn :=
  if n < b.msgCap ∧ n < 4096 ∧ imm8 < 256 then
    some (encode (.wrMsg (BitVec.ofNat 12 n) (BitVec.ofNat 8 imm8)))
  else none

/-- The writes of the cells from `n` on, one character each, as its ASCII code (R94). -/
def asmText (b : Build) : Nat → List Char → Option (List Txn)
  | _, [] => some []
  | n, c :: cs =>
    if c.toNat < 128 then
      match asmWriteMsg b n c.toNat, asmText b (n + 1) cs with
      | some x, some xs => some (x :: xs)
      | _, _ => none
    else none

/-- The word of a line that is one word, in a list. -/
def asmOne (o : Option Txn) : Option (List Txn) := o.map (fun x => [x])

/-- All the words, if every one is there. -/
def asmAll : List (Option Txn) → Option (List Txn)
  | [] => some []
  | none :: _ => none
  | some x :: rest => (asmAll rest).map (fun xs => x :: xs)

/-- The transaction words of a line (R93, R94); none is an assembly error. -/
def assemble (b : Build) : Line → Option (List Txn)
  | .rd r => some [mkTxn false r.addr 0]
  | .wr r imm => asmOne (asmWrite r imm)
  | .cmdNop => some [encode .cmdNop]
  | .cmdStart => some [encode .cmdStart]
  | .cmdStop => some [encode .cmdStop]
  | .pull => some [encode .pull]
  | .rdMsg n => if n < b.msgCap ∧ n < 4096 then some [encode (.rdMsg (BitVec.ofNat 12 n))] else none
  | .wrMsg n imm8 => asmOne (asmWriteMsg b n imm8)
  | .rdLut n => if n < b.T ∧ n < 8192 then some [encode (.rdLut (BitVec.ofNat 13 n))] else none
  | .raw x => if x < 2 ^ 49 then some [BitVec.ofNat 49 x] else none
  | .clrErr => asmOne (asmWrite .err 0x3F)
  | .loadMsg text =>
    match asmText b 0 text, asmAll [asmWriteMsg b text.length 0, asmWrite .msgLen (text.length + 1)] with
    | some xs, some ys => some (xs ++ ys)
    | _, _ => none
  | .pullN c => some (List.replicate c (encode .pull))
  | .config fs f0 f1 baud tstart tstop =>
    asmAll [asmWrite .fs fs, asmWrite .f0 f0, asmWrite .f1 f1, asmWrite .baud baud,
      asmWrite .tstartMs tstart, asmWrite .tstopMs tstop]

end Sys2Proof.Machine
end

