-- ==== Sys2Proof/Safety.lean ====
section
/-! DEFINITION. Sys2Proof/Safety.lean: the terms that claims use: the invariant of 10_state.md R40, the record of an error, the bit timeline,
runs of pulls, and what a stream depends on. -/

namespace Sys2Proof.Machine

/-! ## The invariant (10_state.md R40, with R25 to R29 and R34) -/

/-- What holds after reset and after every transaction. -/
structure BlockInv (s : State) : Prop where
  /-- The build is one this hardware may have (60_exceptions.md R234). -/
  build_legal : s.build.legal = true
  /-- The message RAM is in its canonical form, and inside its capacity (R34). -/
  msg_wf : s.msg.wf = true
  msg_below : s.msg.below s.build.msgCap = true
  /-- R40 (a), (b). -/
  phase_lt : s.phase.toNat < s.build.M
  step0_lt : s.step0.toNat < s.build.M
  step1_lt : s.step1.toNat < s.build.M
  /-- R40 (c): i ≤ END, and END is the timeline's length for the L latched at START. -/
  timeline : s.stream ≠ .idle → s.slot.toNat ≤ s.endSlot.toNat ∧
    ∃ len, len ≤ s.build.msgCap ∧ s.endSlot.toNat = s.preSlots.toNat + 10 * len + s.postSlots.toNat
  /-- R40 (c), (d): while RUN that L is `MSG_LEN`. -/
  running : s.stream = .run → s.msgLen.toNat ≤ s.build.msgCap ∧
    s.endSlot.toNat = s.preSlots.toNat + 10 * s.msgLen.toNat + s.postSlots.toNat
  /-- R40 (e). -/
  idle : s.stream = .idle → s.slot = 0 ∧ s.phase = 0 ∧ s.preSlots = 0 ∧ s.postSlots = 0 ∧ s.endSlot = 0 ∧
    s.step0 = 0 ∧ s.step1 = 0
  /-- R28: the reserved bits of ERR are 0. -/
  err_reserved : s.err.toNat < 2 ^ 6
  /-- R29: the reserved bits 19 and 30:22 of ERR_INFO are 0, ECAUSE is a cause, ECFG is 0 but for CFG_ERR. -/
  info_reserved : s.errInfo.extractLsb' 19 1 = 0 ∧ s.errInfo.extractLsb' 22 9 = 0
  info_cause : (s.errInfo.extractLsb' 16 3).toNat ≤ 5 ∧
    (s.errInfo.extractLsb' 16 3 ≠ 4 → s.errInfo.extractLsb' 20 2 = 0)
  /-- R29: EVALID is set once any error was captured, and a set flag was captured. -/
  info_valid : (s.err ≠ 0 → s.errInfo.getLsbD 31 = true) ∧ (s.errInfo.getLsbD 31 = false → s.errInfo = 0)

/-! ## Errors (60_exceptions.md R221, R222) -/

/-- `s` after error number `c` with ECFG `reason` of a transaction to byte address `addr`, and nothing else: flag `c` is set; if
no flag was set just before, ERR_INFO holds EVALID (bit 31), ECFG (bits 21:20), ECAUSE (bits 18:16) and EADDR (bits 15:0);
`rdata` is 0. Written by bit weights, not from Machine/Flags.lean. -/
def errorRecorded (s : State) (c reason addr : Nat) : State :=
  { s with
    err := s.err ||| BitVec.ofNat 32 (2 ^ c)
    errInfo := if s.err = 0 then BitVec.ofNat 32 (2 ^ 31 + reason * 2 ^ 20 + c * 2 ^ 16 + addr) else s.errInfo
    rdata := 0 }

/-! ## START (41_commands.md R152) -/

/-- END as START would compute it from the configuration, exactly. -/
def configuredEnd (s : State) : Nat :=
  s.tstartMs.toNat * s.baud.toNat / 1000 + 10 * s.msgLen.toNat + s.tstopMs.toNat * s.baud.toNat / 1000

/-- START is accepted. -/
abbrev StartAccepted (s : State) : Prop :=
  s.stream ≠ .run ∧ s.fs ≠ 0 ∧ s.msgLen.toNat ≤ s.build.msgCap ∧ configuredEnd s < 2 ^ 32

/-! ## The bit timeline (42_bit_framer.md R171, R174) -/

/-- The data bit that slot `i` carries, if it is a data slot: (byte index, bit position). -/
def dataSlot (s : State) (i : Nat) : Option (Nat × Nat) :=
  let p := s.preSlots.toNat
  if p ≤ i ∧ i < p + 10 * s.msgLen.toNat ∧ 1 ≤ (i - p) % 10 ∧ (i - p) % 10 ≤ 8 then
    some ((i - p) / 10, (i - p) % 10 - 1)
  else none

/-- The framer can read what slot `i` needs: its message cell, if it is a data slot, was written. -/
abbrev SlotReadable (s : State) (i : Nat) : Prop :=
  ∀ b k, dataSlot s i = some (b, k) → (s.msg.read b).isSome

/-- The bit of slot `i` of the timeline: marks are 1, a start bit is 0, a stop bit is 1, data bits go LSB first. -/
def timelineBit (s : State) (i : Nat) : Bool :=
  match dataSlot s i with
  | some (b, k) => ((s.msg.read b).getD 0).getLsbD k
  | none =>
    !(decide (s.preSlots.toNat ≤ i) && decide (i < s.preSlots.toNat + 10 * s.msgLen.toNat) &&
      decide ((i - s.preSlots.toNat) % 10 = 0))

/-- The step of slot `i` (43_nco_lut.md R194). -/
def timelineStep (s : State) (i : Nat) : Nat := if timelineBit s i then s.step1.toNat else s.step0.toNat

/-- The sum of the steps of `n` slots from slot `i` on (43_nco_lut.md R198). -/
def stepSum (s : State) (i : Nat) : Nat → Nat
  | 0 => 0
  | n + 1 => stepSum s i n + timelineStep s (i + n)

/-! ## Runs of pulls -/

/-- `n` pulls one after the other, stopping at the first stop. -/
def pulls : Nat → State → Result
  | 0, s => .next s
  | n + 1, s =>
    match exec .pull s with
    | .next t => pulls n t
    | .fault f => .fault f
    | .refused r => .refused r

/-- The responses of `n` pulls, up to the first stop. -/
def pullResponses : Nat → State → List Word
  | 0, _ => []
  | n + 1, s =>
    match exec .pull s with
    | .next t => t.rdata :: pullResponses n t
    | .fault _ => []
    | .refused _ => []

/-- The two states agree on all that a pull's response may depend on (70_reset_and_hazards.md R261, 20_memory.md R70). The
configuration registers but `MSG_LEN`, the error registers, `rdata` and the port may differ. -/
structure SameStream (s t : State) : Prop where
  build : s.build = t.build
  stream : s.stream = t.stream
  msgLen : s.msgLen = t.msgLen
  preSlots : s.preSlots = t.preSlots
  postSlots : s.postSlots = t.postSlots
  endSlot : s.endSlot = t.endSlot
  step0 : s.step0 = t.step0
  step1 : s.step1 = t.step1
  slot : s.slot = t.slot
  phase : s.phase = t.phase
  msg : ∀ n, s.msg.read n = t.msg.read n

/-- The two states agree on the configuration, the message and the build: on all that a new stream is made from. -/
structure SameConfiguration (s t : State) : Prop where
  build : s.build = t.build
  fs : s.fs = t.fs
  f0 : s.f0 = t.f0
  f1 : s.f1 = t.f1
  baud : s.baud = t.baud
  tstartMs : s.tstartMs = t.tstartMs
  tstopMs : s.tstopMs = t.tstopMs
  msgLen : s.msgLen = t.msgLen
  msg : ∀ n, s.msg.read n = t.msg.read n

/-- The five stream constants (10_state.md R25) are as before. -/
structure SameConstants (s t : State) : Prop where
  preSlots : t.preSlots = s.preSlots
  postSlots : t.postSlots = s.postSlots
  endSlot : t.endSlot = s.endSlot
  step0 : t.step0 = s.step0
  step1 : t.step1 = s.step1

/-! ## Rows of the opcode map (30_encoding.md R88) -/

/-- The read of byte address `addr`, whatever WDATA, is the row `i`, and in every state it answers `value` and changes nothing else
(40_register_access.md R100). -/
def ReadsAs (addr : Nat) (i : Instr) (value : State → Word) : Prop :=
  ∀ (d : Word) (s : State), decode (mkTxn false (BitVec.ofNat 16 addr) d) = .instr i ∧
    exec i s = .next { s with rdata := value s }

/-- The write of byte address `addr` is RO_ERR in every state, whatever WDATA, and changes nothing else (30_encoding.md R89). -/
def WriteRefused (addr : Nat) : Prop :=
  ∀ (d : Word) (s : State), perform (mkTxn true (BitVec.ofNat 16 addr) d) s = .next (errorRecorded s 1 0 addr)

/-- The write of byte address `addr` is the row `i`: LOCK_ERR and nothing else in RUN, else `target` holds WDATA, `rdata` is 0, and nothing
else changes (40_register_access.md R101). -/
def LockedRegister (addr : Nat) (i : Word → Instr) (target : State → Word → State) : Prop :=
  ∀ (d : Word) (s : State), decode (mkTxn true (BitVec.ofNat 16 addr) d) = .instr (i d) ∧
    (s.stream = .run → exec (i d) s = .next (errorRecorded s 2 0 addr)) ∧
    (s.stream ≠ .run → exec (i d) s = .next { target s d with rdata := 0 })

/-- A row of opcode_table.json: a word is the row's if its bits under `mask` are `pattern`; `row` is the row's place in the table. -/
structure TableRow where
  row : Nat
  pattern : Txn
  mask : Txn
deriving DecidableEq, Repr

/-- The masks of opcode_table.json: WE and ADDR; the whole word; the message window; the table window. -/
def maskReg : Txn := 0x1FFFF00000000
def maskCmd : Txn := 0x1FFFFFFFFFFFF
def maskMsg : Txn := 0x1C00300000000
def maskLut : Txn := 0x1800300000000

/-- opcode_table.json, row by row. -/
def opcodeTable : List TableRow :=
  [⟨0, 0x0000000000000, maskReg⟩, ⟨1, 0x0000400000000, maskReg⟩, ⟨2, 0x0000800000000, maskReg⟩,
   ⟨3, 0x1000800000000, maskReg⟩, ⟨4, 0x0000C00000000, maskReg⟩, ⟨5, 0x0001000000000, maskReg⟩] ++
  [⟨6, 0x1001000000000, maskCmd⟩, ⟨7, 0x1001000000001, maskCmd⟩, ⟨8, 0x1001000000002, maskCmd⟩] ++
  [⟨9, 0x0002000000000, maskReg⟩, ⟨10, 0x1002000000000, maskReg⟩, ⟨11, 0x0002400000000, maskReg⟩,
   ⟨12, 0x1002400000000, maskReg⟩, ⟨13, 0x0002800000000, maskReg⟩, ⟨14, 0x1002800000000, maskReg⟩,
   ⟨15, 0x0002C00000000, maskReg⟩, ⟨16, 0x1002C00000000, maskReg⟩, ⟨17, 0x0003000000000, maskReg⟩,
   ⟨18, 0x1003000000000, maskReg⟩, ⟨19, 0x0003400000000, maskReg⟩, ⟨20, 0x1003400000000, maskReg⟩,
   ⟨21, 0x0003800000000, maskReg⟩, ⟨22, 0x1003800000000, maskReg⟩] ++
  [⟨23, 0x0004000000000, maskReg⟩, ⟨24, 0x0004400000000, maskReg⟩, ⟨25, 0x0005000000000, maskReg⟩,
   ⟨26, 0x0005400000000, maskReg⟩, ⟨27, 0x0005800000000, maskReg⟩, ⟨28, 0x0005C00000000, maskReg⟩,
   ⟨29, 0x0006000000000, maskReg⟩, ⟨30, 0x0006400000000, maskReg⟩, ⟨31, 0x0006800000000, maskReg⟩,
   ⟨32, 0x0007000000000, maskReg⟩] ++
  [⟨33, 0x0400000000000, maskMsg⟩, ⟨34, 0x1400000000000, maskMsg⟩, ⟨35, 0x0800000000000, maskLut⟩]

/-- The place of an instruction's row in opcode_table.json. -/
def rowOf : Instr → Nat
  | .rdId => 0 | .rdStatus => 1 | .rdErr => 2 | .wrErr _ => 3 | .rdErrInfo => 4 | .rdCmd => 5
  | .cmdNop => 6 | .cmdStart => 7 | .cmdStop => 8
  | .rdFs => 9 | .wrFs _ => 10 | .rdF0 => 11 | .wrF0 _ => 12 | .rdF1 => 13 | .wrF1 _ => 14
  | .rdBaud => 15 | .wrBaud _ => 16 | .rdTstartMs => 17 | .wrTstartMs _ => 18
  | .rdTstopMs => 19 | .wrTstopMs _ => 20 | .rdMsgLen => 21 | .wrMsgLen _ => 22
  | .rdLutLen => 23 | .rdMsgCap => 24 | .rdPreSlots => 25 | .rdPostSlots => 26 | .rdEndSlot => 27
  | .rdStep0 => 28 | .rdStep1 => 29 | .rdSlot => 30 | .rdPhase => 31 | .pull => 32
  | .rdMsg _ => 33 | .wrMsg _ _ => 34 | .rdLut _ => 35

/-- The bits of WDATA that an instruction reads (30_encoding.md R90): none for a read, [5:0] of WR_ERR, [7:0] of WR_MSG, else all. -/
def dataMask : Instr → Word
  | .wrErr _ => 0x0000003F
  | .wrMsg _ _ => 0x000000FF
  | .cmdNop | .cmdStart | .cmdStop | .wrFs _ | .wrF0 _ | .wrF1 _ | .wrBaud _ | .wrTstartMs _ | .wrTstopMs _
  | .wrMsgLen _ => 0xFFFFFFFF
  | .rdId | .rdStatus | .rdErr | .rdErrInfo | .rdCmd | .rdFs | .rdF0 | .rdF1 | .rdBaud | .rdTstartMs
  | .rdTstopMs | .rdMsgLen | .rdLutLen | .rdMsgCap | .rdPreSlots | .rdPostSlots | .rdEndSlot | .rdStep0
  | .rdStep1 | .rdSlot | .rdPhase | .pull | .rdMsg _ | .rdLut _ => 0

/-- A safe run: from `s`, `n` steps of the machine end in a next state (no model fault, no refusal). -/
def SafeRun (n : Nat) (s : State) : Prop := ∃ t, Sys2Proof.core.run n s = .next t

end Sys2Proof.Machine
end

