-- ==== Sys2Proof/Certificates/Slice0/Obligations.lean ====
section
/-! DEFINITION. Sys2Proof/Certificates/Slice0/Obligations.lean: the statements for the provers, about the machine in every state and for every
build. -/

open Sys2Proof Sys2Proof.Machine

/-- RD_ID answers 0x46534B4D and RD_CMD answers 0, in every state, and change nothing else. Formalises R102, R107. -/
def Obligations.IdAndCommandPortReads : Prop :=
  ReadsAs 0x0000 .rdId (fun _ => 0x46534B4D) ∧ ReadsAs 0x0010 .rdCmd (fun _ => 0)

/-- STATUS reads state in bits 1:0 and ERR_ANY in bit 2, is 0 after reset, and refuses a write. Formalises R31. -/
def Obligations.StatusReadIsTheView : Prop :=
  (∀ d : Word, decode (mkTxn false 0x0004 d) = .instr .rdStatus) ∧
  (∀ s : State, exec .rdStatus s = .next { s with
    rdata := BitVec.ofNat 32
      ((match s.stream with | .idle => 0 | .run => 1 | .done => 2) + if s.err = 0 then 0 else 4) }) ∧
  (∀ b : Build, exec .rdStatus (State.resetOf b) = .next { State.resetOf b with rdata := 0 }) ∧
  WriteRefused 0x0004

/-- RD_ERR answers the six flags zero-extended and clears nothing; RD_ERR_INFO answers ERR_INFO. Formalises R104. -/
def Obligations.ErrorRegisterReads : Prop :=
  ReadsAs 0x0008 .rdErr (fun s => BitVec.ofNat 32 (s.err.toNat % 64)) ∧
  ReadsAs 0x000C .rdErrInfo (fun s => s.errInfo)

/-- The seven configuration reads answer their own register in every state and change nothing else. Formalises R108, R110,
R112, R114, R116, R118, R120. -/
def Obligations.ConfigurationReads : Prop :=
  ReadsAs 0x0020 .rdFs (fun s => s.fs) ∧ ReadsAs 0x0024 .rdF0 (fun s => s.f0) ∧
  ReadsAs 0x0028 .rdF1 (fun s => s.f1) ∧ ReadsAs 0x002C .rdBaud (fun s => s.baud) ∧
  ReadsAs 0x0030 .rdTstartMs (fun s => s.tstartMs) ∧ ReadsAs 0x0034 .rdTstopMs (fun s => s.tstopMs) ∧
  ReadsAs 0x0038 .rdMsgLen (fun s => s.msgLen)

/-- RD_LUT_LEN answers T and RD_MSG_CAP answers MSG_CAP in every state; writes there are RO_ERR. Formalises R122, R123. -/
def Obligations.BuildConstantReads : Prop :=
  ReadsAs 0x0040 .rdLutLen (fun s => BitVec.ofNat 32 s.build.lut.length) ∧
  ReadsAs 0x0044 .rdMsgCap (fun s => BitVec.ofNat 32 s.build.msgCap) ∧
  WriteRefused 0x0040 ∧ WriteRefused 0x0044

/-- The reads of PRE_SLOTS, POST_SLOTS, END_SLOT, STEP0, STEP1, SLOT and PHASE answer them; writes are RO_ERR. Rests on
40_register_access.md section 4, 30_encoding.md section 5. -/
def Obligations.StreamRegisterReads : Prop :=
  (ReadsAs 0x0050 .rdPreSlots (fun s => s.preSlots) ∧ WriteRefused 0x0050) ∧
  (ReadsAs 0x0054 .rdPostSlots (fun s => s.postSlots) ∧ WriteRefused 0x0054) ∧
  (ReadsAs 0x0058 .rdEndSlot (fun s => s.endSlot) ∧ WriteRefused 0x0058) ∧
  (ReadsAs 0x005C .rdStep0 (fun s => s.step0) ∧ WriteRefused 0x005C) ∧
  (ReadsAs 0x0060 .rdStep1 (fun s => s.step1) ∧ WriteRefused 0x0060) ∧
  (ReadsAs 0x0064 .rdSlot (fun s => s.slot) ∧ WriteRefused 0x0064) ∧
  (ReadsAs 0x0068 .rdPhase (fun s => s.phase) ∧ WriteRefused 0x0068)

/-- A configuration write is LOCK_ERR and nothing else in RUN, else it stores WDATA and changes nothing else. Rests on
40_register_access.md section 1, 40_register_access.md section 3. -/
def Obligations.ConfigurationWritesAreLocked : Prop :=
  LockedRegister 0x0020 .wrFs (fun s v => { s with fs := v }) ∧
  LockedRegister 0x0024 .wrF0 (fun s v => { s with f0 := v }) ∧
  LockedRegister 0x0028 .wrF1 (fun s v => { s with f1 := v }) ∧
  LockedRegister 0x002C .wrBaud (fun s v => { s with baud := v }) ∧
  LockedRegister 0x0030 .wrTstartMs (fun s v => { s with tstartMs := v }) ∧
  LockedRegister 0x0034 .wrTstopMs (fun s v => { s with tstopMs := v }) ∧
  LockedRegister 0x0038 .wrMsgLen (fun s v => { s with msgLen := v })

/-- RD_MSG answers the written byte, faults on an unwritten cell, and is ADDR_ERR past MSG_CAP, in every state. Formalises
R131. -/
def Obligations.MessageReadRow : Prop :=
  ∀ (n : BitVec 12) (d : Word) (s : State),
    decode (mkTxn false (BitVec.ofNat 16 (0x4000 + 4 * n.toNat)) d) = .instr (.rdMsg n) ∧
    (n.toNat < s.build.msgCap → ∀ v, s.msg.read n.toNat = some v →
      exec (.rdMsg n) s = .next { s with rdata := BitVec.ofNat 32 v.toNat }) ∧
    (n.toNat < s.build.msgCap → s.msg.read n.toNat = none → exec (.rdMsg n) s = .fault .unwrittenMsg) ∧
    (s.build.msgCap ≤ n.toNat →
      exec (.rdMsg n) s = .next (errorRecorded s 0 0 (0x4000 + 4 * n.toNat)))

/-- WR_MSG stores WDATA[7:0] in cell n and touches no other cell; LOCK_ERR in RUN; ADDR_ERR past MSG_CAP. Rests on
40_register_access.md section 5, 20_memory.md section 1, 60_exceptions.md section 3. -/
def Obligations.MessageWriteRow : Prop :=
  ∀ (n : BitVec 12) (d : Word) (byte : Byte) (s : State),
    decode (mkTxn true (BitVec.ofNat 16 (0x4000 + 4 * n.toNat)) d) =
      .instr (.wrMsg n (BitVec.ofNat 8 (d.toNat % 256))) ∧
    (n.toNat < s.build.msgCap → s.stream = .run →
      exec (.wrMsg n byte) s = .next (errorRecorded s 2 0 (0x4000 + 4 * n.toNat))) ∧
    (n.toNat < s.build.msgCap → s.stream ≠ .run →
      ∃ m : Memory, exec (.wrMsg n byte) s = .next { s with msg := m, rdata := 0 } ∧
        m.read n.toNat = some byte ∧ ∀ k, k ≠ n.toNat → m.read k = s.msg.read k) ∧
    (s.build.msgCap ≤ n.toNat →
      exec (.wrMsg n byte) s = .next (errorRecorded s 0 0 (0x4000 + 4 * n.toNat)))

/-- RD_LUT answers table word n below T and is ADDR_ERR past it; a table write is RO_ERR below T, else ADDR_ERR.
Formalises R64, R200. -/
def Obligations.TableWindowRow : Prop :=
  ∀ (n : BitVec 13) (d : Word) (s : State),
    decode (mkTxn false (BitVec.ofNat 16 (0x8000 + 4 * n.toNat)) d) = .instr (.rdLut n) ∧
    (∀ w, s.build.lut[n.toNat]? = some w →
      exec (.rdLut n) s = .next { s with rdata := BitVec.ofNat 32 w.toNat }) ∧
    (s.build.lut.length ≤ n.toNat →
      exec (.rdLut n) s = .next (errorRecorded s 0 0 (0x8000 + 4 * n.toNat))) ∧
    (n.toNat < s.build.lut.length →
      perform (mkTxn true (BitVec.ofNat 16 (0x8000 + 4 * n.toNat)) d) s =
        .next (errorRecorded s 1 0 (0x8000 + 4 * n.toNat))) ∧
    (s.build.lut.length ≤ n.toNat →
      perform (mkTxn true (BitVec.ofNat 16 (0x8000 + 4 * n.toNat)) d) s =
        .next (errorRecorded s 0 0 (0x8000 + 4 * n.toNat)))

/-- WR_ERR clears exactly the ERR flags whose mask bit is 1, in every state, and leaves ERR_INFO alone. Formalises R85,
R105. -/
def Obligations.ErrorClearRow : Prop :=
  (∀ d : Word, decode (mkTxn true 0x0008 d) = .instr (.wrErr (BitVec.ofNat 6 (d.toNat % 64)))) ∧
  ∀ (mask : BitVec 6) (s : State), ∃ e : Word,
    exec (.wrErr mask) s = .next { s with err := e, rdata := 0 } ∧
    ∀ b, b < 32 → e.getLsbD b = (s.err.getLsbD b && !(decide (b < 6) && mask.getLsbD b))

/-- A command word with a reserved bit or opcode is CMD_ERR and nothing else; 0, 1 and 2 are NOP, START and STOP.
Formalises R83, R150. -/
def Obligations.CommandWords : Prop :=
  (∀ (d : Word) (s : State), d.toNat / 16 ≠ 0 ∨ d.toNat % 16 > 2 →
    perform (mkTxn true 0x0010 d) s = .next (errorRecorded s 3 0 0x0010)) ∧
  decode (mkTxn true 0x0010 0) = .instr .cmdNop ∧
  decode (mkTxn true 0x0010 1) = .instr .cmdStart ∧
  decode (mkTxn true 0x0010 2) = .instr .cmdStop

/-- CMD_NOP completes in every state and changes nothing but rdata, which is 0. Formalises R151. -/
def Obligations.NopRow : Prop :=
  decode (mkTxn true 0x0010 0) = .instr .cmdNop ∧
  ∀ s : State, exec .cmdNop s = .next { s with rdata := 0 }

/-- CMD_START: its four refusals in the rule's order, and what an accepted START latches, exactly. Formalises R152, R153. -/
def Obligations.StartRow : Prop :=
  decode (mkTxn true 0x0010 1) = .instr .cmdStart ∧
  ∀ s : State, s.build.legal = true →
    (s.stream = .run → exec .cmdStart s = .next (errorRecorded s 3 0 0x0010)) ∧
    (s.stream ≠ .run → s.fs = 0 → exec .cmdStart s = .next (errorRecorded s 4 1 0x0010)) ∧
    (s.stream ≠ .run → s.fs ≠ 0 → s.msgLen.toNat > s.build.msgCap →
      exec .cmdStart s = .next (errorRecorded s 4 2 0x0010)) ∧
    (s.stream ≠ .run → s.fs ≠ 0 → s.msgLen.toNat ≤ s.build.msgCap → configuredEnd s > 2 ^ 32 - 1 →
      exec .cmdStart s = .next (errorRecorded s 4 3 0x0010)) ∧
    (s.stream ≠ .run → s.fs ≠ 0 → s.msgLen.toNat ≤ s.build.msgCap → configuredEnd s ≤ 2 ^ 32 - 1 →
      ∃ p q e s0 s1 : Word,
        exec .cmdStart s = .next { s with
          preSlots := p, postSlots := q, endSlot := e, step0 := s0, step1 := s1
          slot := 0, phase := 0, stream := .run, rdata := 0 } ∧
        p.toNat = s.tstartMs.toNat * s.baud.toNat / 1000 ∧
        q.toNat = s.tstopMs.toNat * s.baud.toNat / 1000 ∧
        e.toNat = p.toNat + 10 * s.msgLen.toNat + q.toNat ∧
        s0.toNat = rne (s.f0.toNat * s.build.lut.length * 2 ^ 16) s.fs.toNat % (s.build.lut.length * 2 ^ 16) ∧
        s1.toNat = rne (s.f1.toNat * s.build.lut.length * 2 ^ 16) s.fs.toNat % (s.build.lut.length * 2 ^ 16))

/-- rne(n, d) is a nearest integer to n/d, and the even one when two are equally near. Formalises R9. -/
def Obligations.RoundingIsNearestTiesToEven : Prop :=
  ∀ n d : Nat, 0 < d →
    2 * (rne n d * d) ≤ 2 * n + d ∧ 2 * n ≤ 2 * (rne n d * d) + d ∧
    (2 * (rne n d * d) = 2 * n + d ∨ 2 * n = 2 * (rne n d * d) + d → rne n d % 2 = 0)

/-- CMD_STOP: CMD_ERR in IDLE, RUN to DONE, no effect in DONE; every later PULL then answers EOS. Formalises R156. -/
def Obligations.StopRow : Prop :=
  decode (mkTxn true 0x0010 2) = .instr .cmdStop ∧
  ∀ s : State,
    (s.stream = .idle → exec .cmdStop s = .next (errorRecorded s 3 0 0x0010)) ∧
    (s.stream = .run → exec .cmdStop s = .next { s with stream := .done, rdata := 0 }) ∧
    (s.stream = .done → exec .cmdStop s = .next { s with rdata := 0 }) ∧
    (s.stream ≠ .idle → ∀ t, exec .cmdStop s = .next t →
      exec .pull t = .next { t with rdata := 0x00020000 } ∧
      ∀ n r, r ∈ pullResponses n t → r = 0x00020000)

/-- The complete transition relation of state, over every row, every illegal transaction and reset. Formalises R157. -/
def Obligations.StateTransitionRelation : Prop :=
  (∀ (i : Instr) (s t : State), s.preSlots.toNat ≤ s.endSlot.toNat → exec i s = .next t →
    (i = .cmdStart → StartAccepted s → t.stream = .run) ∧
    (i = .cmdStart → ¬ StartAccepted s → t.stream = s.stream) ∧
    (i = .cmdStop → s.stream = .idle → t.stream = .idle) ∧
    (i = .cmdStop → s.stream ≠ .idle → t.stream = .done) ∧
    (i = .pull → s.stream = .run → s.endSlot.toNat ≤ s.slot.toNat → t.stream = .done) ∧
    (i = .pull → s.stream = .run → s.slot.toNat < s.endSlot.toNat → t.stream = .run) ∧
    (i = .pull → s.stream ≠ .run → t.stream = s.stream) ∧
    (i ≠ .cmdStart → i ≠ .cmdStop → i ≠ .pull → t.stream = s.stream)) ∧
  (∀ (x : Txn) (e : IllegalAccess) (s t : State), decode x = .illegal e → perform x s = .next t →
    t.stream = s.stream) ∧
  (∀ (s t : State) (rest : List PortEvent), s.port = .reset :: rest → step s = .next t → t.stream = .idle)

/-- PULL in IDLE answers 0 with PULL_ERR; PULL in DONE answers EOS with no error; nothing else changes. Formalises R191,
R192. -/
def Obligations.PullWithoutStream : Prop :=
  ∀ s : State,
    (s.stream = .idle → exec .pull s = .next (errorRecorded s 5 0 0x0070)) ∧
    (s.stream = .done → exec .pull s = .next { s with rdata := 0x00020000 })

/-- PULL over the framer's answer: end of stream, a sample from the advanced phase, or the framer's fault. Formalises
R190, R194. -/
def Obligations.PullRow : Prop :=
  (∀ d : Word, decode (mkTxn false 0x0070 d) = .instr .pull) ∧
  ∀ s : State, s.build.legal = true →
    (s.stream = .idle → exec .pull s = .next (errorRecorded s 5 0 0x0070)) ∧
    (s.stream = .done → exec .pull s = .next { s with rdata := 0x00020000 }) ∧
    (s.stream = .run → ∀ bit, frame s s.slot.toNat = .slot bit true →
      exec .pull s = .next { s with stream := .done, rdata := 0x00020000 }) ∧
    (s.stream = .run → ∀ bit, frame s s.slot.toNat = .slot bit false →
      ∃ (w : Sample) (idx : Word),
        idx.toNat = (s.phase.toNat + (if bit then s.step1.toNat else s.step0.toNat)) %
          (s.build.lut.length * 2 ^ 16) ∧
        s.build.lut[idx.toNat / 2 ^ 16]? = some w ∧
        exec .pull s = .next { s with
          slot := s.slot + 1, phase := idx, rdata := BitVec.ofNat 32 (0x00010000 + w.toNat) }) ∧
    (s.stream = .run → ∀ f, frame s s.slot.toNat = .fault f → exec .pull s = .fault f)

/-- In RUN before END_SLOT, with its message cell written, PULL completes with the sample of its timeline slot. Rests on
43_nco_lut.md section 1, 43_nco_lut.md section 2, 42_bit_framer.md section 1. -/
def Obligations.PullProducesTheTimelineSample : Prop :=
  ∀ s : State, s.build.legal = true → s.stream = .run → s.slot.toNat < s.endSlot.toNat →
    SlotReadable s s.slot.toNat →
    ∃ (i idx : Word) (w : Sample),
      i.toNat = s.slot.toNat + 1 ∧
      idx.toNat = (s.phase.toNat + timelineStep s s.slot.toNat) % (s.build.lut.length * 2 ^ 16) ∧
      s.build.lut[idx.toNat / 2 ^ 16]? = some w ∧
      exec .pull s = .next { s with slot := i, phase := idx, rdata := BitVec.ofNat 32 (0x00010000 + w.toNat) }

/-- frame(i): marks before the frames, start bit, data bits LSB first, stop bit, marks after, done from END on. Formalises
R171, R172, R173, R174, R175. -/
def Obligations.FramerIsTheTimeline : Prop :=
  ∀ (s : State) (i : Nat),
    s.endSlot.toNat = s.preSlots.toNat + 10 * s.msgLen.toNat + s.postSlots.toNat →
    (i < s.preSlots.toNat → frame s i = .slot true false) ∧
    (s.preSlots.toNat + 10 * s.msgLen.toNat ≤ i → i < s.endSlot.toNat → frame s i = .slot true false) ∧
    (s.endSlot.toNat ≤ i → frame s i = .slot false true) ∧
    (∀ b k, b < s.msgLen.toNat → i = s.preSlots.toNat + 10 * b + k →
      (k = 0 → frame s i = .slot false false) ∧
      (k = 9 → frame s i = .slot true false) ∧
      (1 ≤ k → k ≤ 8 → ∀ v, s.msg.read b = some v → frame s i = .slot (v.getLsbD (k - 1)) false) ∧
      (1 ≤ k → k ≤ 8 → s.msg.read b = none → frame s i = .fault .unwrittenMsg))

/-- The ten slots of frame b carry 0, the eight bits of message byte b from bit 0 on, and 1, none of them done. Rests on
42_bit_framer.md section 2, 95_test_vectors.md L1-1. -/
def Obligations.FrameCarriesItsByte : Prop :=
  ∀ (s : State) (b : Nat) (v : Byte),
    s.endSlot.toNat = s.preSlots.toNat + 10 * s.msgLen.toNat + s.postSlots.toNat →
    b < s.msgLen.toNat → s.msg.read b = some v →
    (List.range 10).map (fun k => frame s (s.preSlots.toNat + 10 * b + k)) =
      [.slot false false, .slot (v.getLsbD 0) false, .slot (v.getLsbD 1) false, .slot (v.getLsbD 2) false,
       .slot (v.getLsbD 3) false, .slot (v.getLsbD 4) false, .slot (v.getLsbD 5) false,
       .slot (v.getLsbD 6) false, .slot (v.getLsbD 7) false, .slot true false]

/-- The only model fault any row can reach is UNWRITTEN_MSG, of RD_MSG or of a PULL in RUN; FRAMER_INTERNAL never. Rests
on 42_bit_framer.md section 2, 60_exceptions.md section 9, 20_memory.md section 4. -/
def Obligations.OnlyAnUnwrittenCellFaults : Prop :=
  ∀ (i : Instr) (s : State) (f : Fault), exec i s = .fault f →
    f = .unwrittenMsg ∧
    ((∃ n : BitVec 12, i = .rdMsg n ∧ n.toNat < s.build.msgCap ∧ s.msg.read n.toNat = none) ∨
     (i = .pull ∧ s.stream = .run ∧ ∃ b k, dataSlot s s.slot.toNat = some (b, k) ∧ s.msg.read b = none))

/-- On a legal build no row is ever refused: the table is never read past T, in any state. Rests on 20_memory.md section
4, 43_nco_lut.md section 2. -/
def Obligations.LegalBuildIsNeverRefused : Prop :=
  ∀ (s : State) (r : Refusal), s.build.legal = true → (∀ i, exec i s ≠ .refused r) ∧ step s ≠ .refused r

/-- A table of a length outside 1..8192 or holding -32768 is LUT_ILLEGAL, MSG_CAP outside 1..4096 is CAP_ILLEGAL. That
step refuses, in every state and before any event, is the model's reading (log entry 3). Rests on 60_exceptions.md
section 9, 00_scope.md section 3, notes/assumptions/3.md. -/
def Obligations.IllegalBuildIsRefused : Prop :=
  ∀ s : State,
    let badLut := s.build.lut.length = 0 ∨ 8192 < s.build.lut.length ∨ 0x8000#16 ∈ s.build.lut
    let badCap := s.build.msgCap = 0 ∨ 4096 < s.build.msgCap
    (badLut → ¬ badCap → step s = .refused .lutIllegal) ∧
    (¬ badLut → badCap → step s = .refused .capIllegal) ∧
    (badLut → badCap → step s = .refused .lutIllegal ∨ step s = .refused .capIllegal)

/-- When the next port event is a transaction that decodes to a row, step is exec of that row with the event taken. Rests
on 20_memory.md section 4, 30_encoding.md section 3, notes/assumptions/1.md. -/
def Obligations.StepRunsTheDecodedTransaction : Prop :=
  (∀ (s : State) (x : Txn) (rest : List PortEvent) (i : Instr),
    s.build.legal = true → s.port = .txn x :: rest → decode x = .instr i →
    step s = exec i { s with port := rest }) ∧
  (∀ (s : State) (x : Txn) (rest : List PortEvent),
    s.build.legal = true → s.port = .txn x :: rest → step s = perform x { s with port := rest }) ∧
  (∀ (s : State) (w : Nat), w < 2 ^ 49 →
    s.withFetchWord 56 w = { s with port := .txn (BitVec.ofNat 49 w) :: s.port })

/-- With no port event pending a step changes nothing: the block never acts on its own. That a step is possible then is
the model's reading (log entry 5). Rests on 60_exceptions.md section 6, notes/assumptions/5.md. -/
def Obligations.NothingPendingChangesNothing : Prop :=
  ∀ s : State, s.build.legal = true → s.port = [] → step s = .next s

/-- Every transaction that is no row raises exactly the one error of the table and has no other effect. Formalises R61,
R62, R89. -/
def Obligations.IllegalTransactions : Prop :=
  (∀ (we : Bool) (a : Addr) (d : Word) (s : State), a.toNat % 4 ≠ 0 →
    perform (mkTxn we a d) s = .next (errorRecorded s 0 0 a.toNat)) ∧
  (∀ (we : Bool) (a : Addr) (d : Word) (s : State), a.toNat % 4 = 0 → a.toNat < 0x4000 →
    a.toNat ∉ [0x00, 0x04, 0x08, 0x0C, 0x10, 0x20, 0x24, 0x28, 0x2C, 0x30, 0x34, 0x38,
      0x40, 0x44, 0x50, 0x54, 0x58, 0x5C, 0x60, 0x64, 0x68, 0x70] →
    perform (mkTxn we a d) s = .next (errorRecorded s 0 0 a.toNat)) ∧
  (∀ (we : Bool) (a : Addr) (d : Word) (s : State), a.toNat % 4 = 0 → 0x4000 ≤ a.toNat → a.toNat < 0x8000 →
    s.build.msgCap ≤ (a.toNat - 0x4000) / 4 →
    perform (mkTxn we a d) s = .next (errorRecorded s 0 0 a.toNat)) ∧
  (∀ (we : Bool) (a : Addr) (d : Word) (s : State), a.toNat % 4 = 0 → 0x8000 ≤ a.toNat →
    s.build.lut.length ≤ (a.toNat - 0x8000) / 4 →
    perform (mkTxn we a d) s = .next (errorRecorded s 0 0 a.toNat)) ∧
  (∀ (a : Addr) (d : Word) (s : State), a.toNat % 4 = 0 → 0x8000 ≤ a.toNat →
    (a.toNat - 0x8000) / 4 < s.build.lut.length →
    perform (mkTxn true a d) s = .next (errorRecorded s 1 0 a.toNat)) ∧
  (∀ a ∈ [0x00, 0x04, 0x0C, 0x40, 0x44, 0x50, 0x54, 0x58, 0x5C, 0x60, 0x64, 0x68, 0x70], WriteRefused a) ∧
  (∀ (d : Word) (s : State), d.toNat / 16 ≠ 0 ∨ d.toNat % 16 > 2 →
    perform (mkTxn true 0x0010 d) s = .next (errorRecorded s 3 0 0x0010))

/-- A reset at the port puts every register at its reset value from any state and clears every written mark. Formalises
R251. -/
def Obligations.ResetEvent : Prop :=
  ∀ (s : State) (rest : List PortEvent), s.build.legal = true → s.port = .reset :: rest →
    ∃ t, step s = .next t ∧
      t.stream = .idle ∧ t.fs = 8000 ∧ t.f0 = 1850 ∧ t.f1 = 1650 ∧ t.baud = 50 ∧
      t.tstartMs = 1000 ∧ t.tstopMs = 1000 ∧ t.msgLen = 0 ∧
      t.preSlots = 0 ∧ t.postSlots = 0 ∧ t.endSlot = 0 ∧ t.step0 = 0 ∧ t.step1 = 0 ∧
      t.slot = 0 ∧ t.phase = 0 ∧ t.err = 0 ∧ t.errInfo = 0 ∧
      (∀ n, t.msg.read n = none) ∧ t.build = s.build ∧
      exec .rdId t = .next { t with rdata := 0x46534B4D } ∧
      exec .rdLutLen t = .next { t with rdata := BitVec.ofNat 32 s.build.lut.length } ∧
      exec .rdMsgCap t = .next { t with rdata := BitVec.ofNat 32 s.build.msgCap } ∧
      exec .rdStatus t = .next { t with rdata := 0 }

/-- The state after reset holds the reset values, for every build, and State.reset is that state of its own build. Rests
on 70_reset_and_hazards.md section 1, 10_state.md section 9, notes/assumptions/1.md, notes/assumptions/2.md,
notes/assumptions/4.md. -/
def Obligations.ResetStateHoldsTheResetValues : Prop :=
  (∃ b, State.reset = State.resetOf b) ∧
  ∀ b : Build, (State.resetOf b).build = b ∧ (State.resetOf b).stream = .idle ∧
    (State.resetOf b).fs = 8000 ∧ (State.resetOf b).f0 = 1850 ∧ (State.resetOf b).f1 = 1650 ∧
    (State.resetOf b).baud = 50 ∧ (State.resetOf b).tstartMs = 1000 ∧ (State.resetOf b).tstopMs = 1000 ∧
    (State.resetOf b).msgLen = 0 ∧ (State.resetOf b).preSlots = 0 ∧ (State.resetOf b).postSlots = 0 ∧
    (State.resetOf b).endSlot = 0 ∧ (State.resetOf b).step0 = 0 ∧ (State.resetOf b).step1 = 0 ∧
    (State.resetOf b).slot = 0 ∧ (State.resetOf b).phase = 0 ∧ (State.resetOf b).err = 0 ∧
    (State.resetOf b).errInfo = 0 ∧ (State.resetOf b).rdata = 0 ∧ (State.resetOf b).port = [] ∧
    ∀ n, (State.resetOf b).msg.read n = none

/-- The invariant holds after reset, for every legal build, and at State.reset. Rests on 10_state.md section 10,
70_reset_and_hazards.md section 1. -/
def Obligations.InvariantAtReset : Prop :=
  (∀ b : Build, b.legal = true → BlockInv (State.resetOf b)) ∧ BlockInv State.reset

/-- Every step that answers keeps the invariant of 10_state.md section 10, from every state that has it. Rests on
10_state.md section 10, 10_state.md section 6. -/
def Obligations.StepKeepsTheInvariant : Prop :=
  ∀ s t : State, BlockInv s → step s = .next t → BlockInv t

/-- Decoding the encoded word of every instruction gives it back, every operand at every value. Rests on 30_encoding.md
section 1, 30_encoding.md section 3, 30_encoding.md section 4. -/
def Obligations.DecodeOfEncode : Prop :=
  ∀ i : Instr, decode (encode i) = .instr i ∧ decodeTableWord 56 (encode i).toNat = some i

/-- A word that decodes to an instruction is its encoding up to the ignored WDATA bits. Rests on 30_encoding.md section 1,
30_encoding.md section 5. -/
def Obligations.EncodeOfDecoded : Prop :=
  ∀ (x : Txn) (i : Instr), decode x = .instr i →
    encode i = mkTxn (txnWe x) (txnAddr x) (txnData x &&& dataMask i) ∧
    ∀ d : Word, d &&& dataMask i = txnData x &&& dataMask i → decode (mkTxn (txnWe x) (txnAddr x) d) = .instr i

/-- A word decodes to a row exactly when its masked bits are the row's match in opcode_table.json; no two rows overlap.
Rests on 30_encoding.md section 4, opcode_table.json. -/
def Obligations.DecoderIsTheOpcodeTable : Prop :=
  ∀ (x : Txn) (r : TableRow), r ∈ opcodeTable →
    (x &&& r.mask = r.pattern ↔ ∃ i, decode x = .instr i ∧ rowOf i = r.row)

/-- Words of the spec's test vectors, one or more per family, decode to the transactions they stand for. Rests on
95_test_vectors.md section 2, 95_test_vectors.md section 3. -/
def Obligations.WrittenOutWordsDecode : Prop :=
  decode 0x0000000000000 = .instr .rdId ∧ decode 0x0000400000000 = .instr .rdStatus ∧
  decode 0x100080000003F = .instr (.wrErr 0x3F) ∧ decode 0x10024000003E8 = .instr (.wrF0 1000) ∧
  decode 0x1003800000002 = .instr (.wrMsgLen 2) ∧ decode 0x0005800000000 = .instr .rdEndSlot ∧
  decode 0x0006800000000 = .instr .rdPhase ∧ decode 0x1001000000001 = .instr .cmdStart ∧
  decode 0x1001000000002 = .instr .cmdStop ∧ decode 0x0007000000000 = .instr .pull ∧
  decode 0x1400C000001A5 = .instr (.wrMsg 3 0xA5) ∧ decode 0x0800C00000000 = .instr (.rdLut 3) ∧
  decode 0x1001000000010 = .illegal .reservedCommand ∧ decode 0x0001400000000 = .illegal .unmappedOffset

/-- A configuration register changes only by its own WR row outside RUN, and then holds the value written. Rests on
10_state.md section 3, 20_memory.md section 4. -/
def Obligations.OnlyItsOwnWriteChangesAConfigurationRegister : Prop :=
  ∀ (i : Instr) (s t : State), exec i s = .next t →
    (t.fs ≠ s.fs → i = .wrFs t.fs ∧ s.stream ≠ .run) ∧
    (t.f0 ≠ s.f0 → i = .wrF0 t.f0 ∧ s.stream ≠ .run) ∧
    (t.f1 ≠ s.f1 → i = .wrF1 t.f1 ∧ s.stream ≠ .run) ∧
    (t.baud ≠ s.baud → i = .wrBaud t.baud ∧ s.stream ≠ .run) ∧
    (t.tstartMs ≠ s.tstartMs → i = .wrTstartMs t.tstartMs ∧ s.stream ≠ .run) ∧
    (t.tstopMs ≠ s.tstopMs → i = .wrTstopMs t.tstopMs ∧ s.stream ≠ .run) ∧
    (t.msgLen ≠ s.msgLen → i = .wrMsgLen t.msgLen ∧ s.stream ≠ .run)

/-- PRE_SLOTS, POST_SLOTS, END_SLOT, STEP0 and STEP1 change only by an accepted CMD_START. Rests on 10_state.md section 4. -/
def Obligations.OnlyAnAcceptedStartChangesTheStreamConstants : Prop :=
  (∀ (i : Instr) (s t : State), exec i s = .next t → ¬ (i = .cmdStart ∧ StartAccepted s) → SameConstants s t) ∧
  (∀ (x : Txn) (e : IllegalAccess) (s t : State), decode x = .illegal e → perform x s = .next t → SameConstants s t)

/-- SLOT and PHASE change only by an accepted START, which zeroes both, and by a sample-producing PULL in RUN. Rests on
10_state.md section 5, 10_state.md section 10, 43_nco_lut.md section 2. -/
def Obligations.OnlyStartAndPullMoveTheCounters : Prop :=
  ∀ (i : Instr) (s t : State), s.build.legal = true → exec i s = .next t → t.slot ≠ s.slot ∨ t.phase ≠ s.phase →
    (i = .cmdStart ∧ StartAccepted s ∧ t.slot = 0 ∧ t.phase = 0) ∨
    (i = .pull ∧ s.stream = .run ∧ t.stream = .run ∧ t.slot = s.slot + 1 ∧
      (t.phase.toNat = (s.phase.toNat + s.step0.toNat) % (s.build.lut.length * 2 ^ 16) ∨
       t.phase.toNat = (s.phase.toNat + s.step1.toNat) % (s.build.lut.length * 2 ^ 16)))

/-- A message cell changes only by WR_MSG of that cell outside RUN; no row touches the table, MSG_CAP or the port. Rests
on 10_state.md section 8, 20_memory.md section 4, 40_register_access.md section 5. -/
def Obligations.OnlyAMessageWriteChangesACell : Prop :=
  ∀ (i : Instr) (s t : State), exec i s = .next t →
    t.build = s.build ∧ t.port = s.port ∧
    ∀ k, t.msg.read k ≠ s.msg.read k →
      ∃ (n : BitVec 12) (byte : Byte), i = .wrMsg n byte ∧ k = n.toNat ∧ n.toNat < s.build.msgCap ∧
        s.stream ≠ .run ∧ t.msg.read k = some byte

/-- No transaction but WR_ERR clears a flag; an error that comes while ERR is 0, and no other, is captured in ERR_INFO.
Rests on 10_state.md section 6, 60_exceptions.md section 3. -/
def Obligations.FlagsAreStickyAndTheFirstErrorIsCaptured : Prop :=
  ∀ (x : Txn) (s t : State), perform x s = .next t →
    ((∀ m, decode x ≠ .instr (.wrErr m)) → ∀ b, s.err.getLsbD b = true → t.err.getLsbD b = true) ∧
    (t.errInfo ≠ s.errInfo → s.err = 0 ∧ t.err ≠ 0) ∧
    (s.err = 0 → t.err ≠ 0 →
      t.errInfo.getLsbD 31 = true ∧ t.errInfo.extractLsb' 0 16 = txnAddr x ∧
      t.err.toNat = 2 ^ (t.errInfo.extractLsb' 16 3).toNat)

/-- A transaction that raises an error raises exactly one and has no other effect than its record and rdata 0. Rests on
60_exceptions.md section 1, 60_exceptions.md section 2, 60_exceptions.md section 3. -/
def Obligations.OneErrorAndNoOtherEffect : Prop :=
  ∀ (x : Txn) (s t : State), perform x s = .next t →
    (∃ c reason, c ≤ 5 ∧ reason ≤ 3 ∧ (c ≠ 4 → reason = 0) ∧ t = errorRecorded s c reason (txnAddr x).toNat) ∨
    (t.errInfo = s.errInfo ∧ (∀ b, t.err.getLsbD b = true → s.err.getLsbD b = true) ∧
      ∃ u, perform x { s with err := 0 } = .next u ∧ u.err = 0)

/-- While a stream runs no step but a reset changes the configuration, the message, the constants or the build. Rests on
20_memory.md section 4, 70_reset_and_hazards.md section 3, 10_state.md section 10. -/
def Obligations.RunningStreamIsLocked : Prop :=
  ∀ s t : State, s.stream = .run → (∀ rest, s.port ≠ .reset :: rest) → step s = .next t →
    t.fs = s.fs ∧ t.f0 = s.f0 ∧ t.f1 = s.f1 ∧ t.baud = s.baud ∧ t.tstartMs = s.tstartMs ∧
    t.tstopMs = s.tstopMs ∧ t.msgLen = s.msgLen ∧ (∀ n, t.msg.read n = s.msg.read n) ∧
    SameConstants s t ∧ t.build = s.build

/-- A read of any address but SAMPLE changes nothing but rdata, or records ADDR_ERR with rdata 0. Rests on 20_memory.md
section 3, 40_register_access.md section 1. -/
def Obligations.ReadsHaveNoSideEffect : Prop :=
  ∀ (a : Addr) (d : Word) (s t : State), a ≠ 0x0070 → perform (mkTxn false a d) s = .next t →
    t = { s with rdata := t.rdata } ∨ t = errorRecorded s 0 0 a.toNat

/-- A PULL response is a sample (VALID), end of stream (EOS) or, in IDLE with PULL_ERR, 0; reserved bits are 0. Formalises
R84. -/
def Obligations.PullResponsesAreTheThreeForms : Prop :=
  ∀ s t : State, exec .pull s = .next t →
    (s.stream = .run ∧ t.stream = .run ∧ ∃ w : Sample, t.rdata.toNat = 0x00010000 + w.toNat ∧
      t.rdata.getLsbD 16 = true ∧ t.rdata.getLsbD 17 = false ∧ t.rdata.extractLsb' 0 16 = w ∧
      t.rdata.extractLsb' 18 14 = 0) ∨
    (s.stream ≠ .idle ∧ t.stream = .done ∧ t.rdata = 0x00020000) ∨
    (s.stream = .idle ∧ t.rdata = 0 ∧ t = errorRecorded s 5 0 0x0070)

/-- Every sample is a word of the table, unchanged, and lies in -32767..32767. Rests on 43_nco_lut.md section 2,
10_state.md section 8. -/
def Obligations.SamplesAreTableWordsInRange : Prop :=
  ∀ s t : State, s.build.legal = true → exec .pull s = .next t → s.stream = .run → t.stream = .run →
    ∃ w ∈ s.build.lut, t.rdata = BitVec.ofNat 32 (0x00010000 + w.toNat) ∧ -32767 ≤ w.toInt ∧ w.toInt ≤ 32767

/-- After n pulls of a running stream the phase is the running sum of the slots' steps modulo M: it never jumps. Rests on
43_nco_lut.md section 2, 95_test_vectors.md L1-4. -/
def Obligations.PhaseIsTheRunningSumOfSteps : Prop :=
  ∀ (n : Nat) (s t : State), BlockInv s → s.stream = .run → s.slot.toNat + n ≤ s.endSlot.toNat →
    pulls n s = .next t →
    t.phase.toNat = (s.phase.toNat + stepSum s s.slot.toNat n) % (s.build.lut.length * 2 ^ 16) ∧
    t.slot.toNat = s.slot.toNat + n ∧ t.stream = .run

/-- A started stream whose message is written answers exactly END_SLOT samples, and then EOS with state DONE. Rests on
43_nco_lut.md section 1, 42_bit_framer.md section 2, 70_reset_and_hazards.md section 4. -/
def Obligations.StreamHasExactlyEndSlotSamples : Prop :=
  ∀ s : State, BlockInv s → s.stream = .run → s.slot = 0 →
    (∀ b, b < s.msgLen.toNat → (s.msg.read b).isSome) →
    (∀ n, n < s.endSlot.toNat → ∃ t u, pulls n s = .next t ∧ exec .pull t = .next u ∧
      u.stream = .run ∧ u.rdata.getLsbD 16 = true ∧ u.rdata.getLsbD 17 = false) ∧
    (∃ t, pulls s.endSlot.toNat s = .next t ∧ t.slot = s.endSlot ∧
      exec .pull t = .next { t with stream := .done, rdata := 0x00020000 })

/-- Two streams started with the same configuration, message and table answer the same responses, pull by pull. Rests on
41_commands.md section 3, 95_test_vectors.md L1-5. -/
def Obligations.StreamsOfOneConfigurationAreEqual : Prop :=
  ∀ (n : Nat) (s s' t t' : State), SameConfiguration s s' → StartAccepted s → s'.stream ≠ .run →
    exec .cmdStart s = .next t → exec .cmdStart s' = .next t' → pullResponses n t = pullResponses n t'

/-- The responses of pulls depend on the stream alone, not on errors, other registers, rdata or what is pending. Rests on
70_reset_and_hazards.md section 4, 20_memory.md section 4, 60_exceptions.md section 4. -/
def Obligations.ResponsesDependOnlyOnTheStream : Prop :=
  ∀ (n : Nat) (s s' : State), SameStream s s' → pullResponses n s = pullResponses n s'

/-- In RUN no transaction but PULL and CMD_STOP changes anything a later sample depends on, errors included. Rests on
60_exceptions.md section 4, 20_memory.md section 4. -/
def Obligations.OtherTransactionsLeaveTheStreamAlone : Prop :=
  ∀ (x : Txn) (s t : State), s.stream = .run → decode x ≠ .instr .pull → decode x ≠ .instr .cmdStop →
    perform x s = .next t → SameStream s t

/-- With every message cell written, from every state with the invariant, every port event completes. Rests on
60_exceptions.md section 1, 20_memory.md section 4. -/
def Obligations.WithTheMessageWrittenTheBlockNeverStops : Prop :=
  ∀ s : State, BlockInv s → (∀ n, n < s.build.msgCap → (s.msg.read n).isSome) → ∃ t, step s = .next t

/-- LOADMSG, CLRERR, PULLN and CONFIG assemble, and expand to exactly their transactions, in order. Rests on
30_encoding.md section 6. -/
def Obligations.PseudoInstructionsExpand : Prop :=
  (∀ (b : Build) (text : List Char), b.legal = true → (∀ c ∈ text, c.toNat < 128) → text.length + 1 ≤ b.msgCap →
    ∃ xs, assemble b (.loadMsg text) = some xs) ∧
  (∀ (b : Build) (text : List Char) (xs : List Txn), assemble b (.loadMsg text) = some xs →
    (∀ c ∈ text, c.toNat < 128) ∧ text.length + 1 ≤ b.msgCap ∧ xs.length = text.length + 2 ∧
    (∀ j c, text[j]? = some c → ∃ x, xs[j]? = some x ∧
      decode x = .instr (.wrMsg (BitVec.ofNat 12 j) (BitVec.ofNat 8 c.toNat))) ∧
    (∃ x, xs[text.length]? = some x ∧ decode x = .instr (.wrMsg (BitVec.ofNat 12 text.length) 0)) ∧
    (∃ x, xs[text.length + 1]? = some x ∧ decode x = .instr (.wrMsgLen (BitVec.ofNat 32 (text.length + 1))))) ∧
  (∀ b : Build, (assemble b .clrErr).map (fun xs => xs.map decode) = some [.instr (.wrErr 0x3F)]) ∧
  (∀ (b : Build) (c : Nat), (assemble b (.pullN c)).map (fun xs => xs.map decode) =
    some (List.replicate c (.instr .pull))) ∧
  (∀ (b : Build) (fs f0 f1 baud t1 t2 : Word),
    (assemble b (.config fs.toNat f0.toNat f1.toNat baud.toNat t1.toNat t2.toNat)).map (fun xs => xs.map decode) =
      some [.instr (.wrFs fs), .instr (.wrF0 f0), .instr (.wrF1 f1), .instr (.wrBaud baud),
        .instr (.wrTstartMs t1), .instr (.wrTstopMs t2)])

/-- A step that answers takes exactly the next port event, a reset too, and leaves the later ones pending in order. The
pending events are the model's own (log entries 1, 4, 6). Rests on 20_memory.md section 4, notes/assumptions/1.md,
notes/assumptions/4.md, notes/assumptions/6.md. -/
def Obligations.EachStepTakesExactlyTheNextEvent : Prop :=
  ∀ (s t : State) (e : PortEvent) (rest : List PortEvent), s.port = e :: rest → step s = .next t →
    t.port = rest ∧ (e = .reset → t.rdata = 0)
end

