-- ==== Sys2Proof/Laws/Decode.lean ====
section
/-! SUPPORT. Sys2Proof/Laws/Decode.lean: the fields of X, and the addresses of the register map and of the windows. -/

namespace Sys2Proof

/-- Each bit of X: WDATA below bit 32, ADDR below bit 48, WE at bit 48 (30_encoding.md R81). -/
theorem getLsbD_mkTxn (we : Bool) (addr : Addr) (data : Word) (i : Nat) :
    (mkTxn we addr data).getLsbD i =
      if i < 32 then data.getLsbD i
      else if i - 32 < 16 then addr.getLsbD (i - 32) else (BitVec.ofBool we).getLsbD (i - 32 - 16) := by
  show BitVec.getLsbD (w := 1 + 16 + 32) (BitVec.ofBool we ++ addr ++ data) i = _
  rw [BitVec.getLsbD_append, BitVec.getLsbD_append]

theorem txnWe_mkTxn (we : Bool) (addr : Addr) (data : Word) : txnWe (mkTxn we addr data) = we := by
  rw [txnWe, getLsbD_mkTxn]
  simp

theorem txnAddr_mkTxn (we : Bool) (addr : Addr) (data : Word) : txnAddr (mkTxn we addr data) = addr := by
  apply BitVec.eq_of_getLsbD_eq
  intro i hi
  simp [txnAddr, getLsbD_mkTxn, hi]

theorem txnData_mkTxn (we : Bool) (addr : Addr) (data : Word) : txnData (mkTxn we addr data) = data := by
  apply BitVec.eq_of_getLsbD_eq
  intro i hi
  simp [txnData, getLsbD_mkTxn, hi]

/-- A word is its three fields. -/
theorem mkTxn_fields (x : Txn) : mkTxn (txnWe x) (txnAddr x) (txnData x) = x := by
  apply BitVec.eq_of_getLsbD_eq
  intro i hi
  simp only [getLsbD_mkTxn, txnWe, txnAddr, txnData, BitVec.getLsbD_extractLsb', BitVec.getLsbD_ofBool]
  by_cases h1 : i < 32
  · simp [h1]
  · by_cases h2 : i - 32 < 16
    · simp [h1, h2, show 32 + (i - 32) = i by omega]
    · have : i = 48 := by omega
      subst this
      simp

/-- Decoding three fields put together is decoding the fields. -/
theorem decode_mkTxn (we : Bool) (addr : Addr) (data : Word) :
    decode (mkTxn we addr data) = decodeFields we addr data := by
  simp [decode, txnWe_mkTxn, txnAddr_mkTxn, txnData_mkTxn]

/-- The register map lists each offset once. -/
theorem Reg.ofOffset_offset (r : Reg) : Reg.ofOffset r.offset = some r := by
  cases r <;> rfl

theorem Reg.offset_of_ofOffset {off : BitVec 14} {r : Reg} (h : Reg.ofOffset off = some r) : r.offset = off := by
  simpa using List.find?_some h

theorem Reg.addr_aligned (r : Reg) : r.addr.extractLsb' 0 2 = 0 := by
  cases r <;> rfl

/-- Each bit of a message cell's address: 01, the index, 00 (30_encoding.md R82). -/
theorem getLsbD_msgAddr (n : BitVec 12) (i : Nat) :
    (msgAddr n).getLsbD i =
      if i < 2 then (0#2).getLsbD i
      else if i - 2 < 12 then n.getLsbD (i - 2) else (1#2).getLsbD (i - 2 - 12) := by
  show BitVec.getLsbD (w := 2 + 12 + 2) (1#2 ++ n ++ 0#2) i = _
  rw [BitVec.getLsbD_append, BitVec.getLsbD_append]

/-- Each bit of a table word's address: 1, the index, 00 (30_encoding.md R82). -/
theorem getLsbD_lutAddr (n : BitVec 13) (i : Nat) :
    (lutAddr n).getLsbD i =
      if i < 2 then (0#2).getLsbD i
      else if i - 2 < 13 then n.getLsbD (i - 2) else (1#1).getLsbD (i - 2 - 13) := by
  show BitVec.getLsbD (w := 1 + 13 + 2) (1#1 ++ n ++ 0#2) i = _
  rw [BitVec.getLsbD_append, BitVec.getLsbD_append]

theorem msgAddr_aligned (n : BitVec 12) : (msgAddr n).extractLsb' 0 2 = 0 := by
  apply BitVec.eq_of_getLsbD_eq
  intro i hi
  simp [getLsbD_msgAddr, hi]

theorem lutAddr_aligned (n : BitVec 13) : (lutAddr n).extractLsb' 0 2 = 0 := by
  apply BitVec.eq_of_getLsbD_eq
  intro i hi
  simp [getLsbD_lutAddr, hi]

/-- The index field of a message cell's address is the index. -/
theorem msgAddr_index (n : BitVec 12) : (msgAddr n).extractLsb' 2 12 = n := by
  apply BitVec.eq_of_getLsbD_eq
  intro i hi
  rw [BitVec.getLsbD_extractLsb', getLsbD_msgAddr, if_neg (by omega), if_pos (by omega), Nat.add_sub_cancel_left]
  simp [hi]

/-- The index field of a table word's address is the index. -/
theorem lutAddr_index (n : BitVec 13) : (lutAddr n).extractLsb' 2 13 = n := by
  apply BitVec.eq_of_getLsbD_eq
  intro i hi
  rw [BitVec.getLsbD_extractLsb', getLsbD_lutAddr, if_neg (by omega), if_pos (by omega), Nat.add_sub_cancel_left]
  simp [hi]

/-- A register's address decodes to its read row or its write row (30_encoding.md R87). -/
theorem decodeFields_reg (we : Bool) (r : Reg) (d : Word) :
    decodeFields we r.addr d = if we then decodeWrite d r else .instr (decodeRead r) := by
  cases we <;> cases r <;> rfl

/-- A message cell's address decodes to its row, whatever the index. -/
theorem decodeFields_msgAddr (we : Bool) (n : BitVec 12) (d : Word) :
    decodeFields we (msgAddr n) d = if we then .instr (.wrMsg n (d.extractLsb' 0 8)) else .instr (.rdMsg n) := by
  have h15 : (msgAddr n).getLsbD 15 = false := by rw [getLsbD_msgAddr]; simp
  have h14 : (msgAddr n).getLsbD 14 = true := by rw [getLsbD_msgAddr]; simp
  unfold decodeFields
  rw [msgAddr_aligned, h15, h14, msgAddr_index]
  simp

/-- A table word's address decodes to its read row; a write there is illegal. -/
theorem decodeFields_lutAddr (we : Bool) (n : BitVec 13) (d : Word) :
    decodeFields we (lutAddr n) d = if we then .illegal (.tableWrite n) else .instr (.rdLut n) := by
  have h15 : (lutAddr n).getLsbD 15 = true := by rw [getLsbD_lutAddr]; simp
  unfold decodeFields
  rw [lutAddr_aligned, h15, lutAddr_index]
  simp

/-- Message cell n is at byte address 0x4000 + 4n. -/
theorem msgAddr_toNat (n : BitVec 12) : (msgAddr n).toNat = 0x4000 + 4 * n.toNat := by
  have h := n.isLt
  show BitVec.toNat (w := 2 + 12 + 2) (1#2 ++ n ++ 0#2) = _
  rw [BitVec.toNat_append, BitVec.toNat_append,
    ← Nat.shiftLeft_add_eq_or_of_lt (by decide), ← Nat.shiftLeft_add_eq_or_of_lt h]
  simp only [Nat.shiftLeft_eq, BitVec.toNat_ofNat]
  omega

/-- Table word n is at byte address 0x8000 + 4n. -/
theorem lutAddr_toNat (n : BitVec 13) : (lutAddr n).toNat = 0x8000 + 4 * n.toNat := by
  have h := n.isLt
  show BitVec.toNat (w := 1 + 13 + 2) (1#1 ++ n ++ 0#2) = _
  rw [BitVec.toNat_append, BitVec.toNat_append,
    ← Nat.shiftLeft_add_eq_or_of_lt (by decide), ← Nat.shiftLeft_add_eq_or_of_lt h]
  simp only [Nat.shiftLeft_eq, BitVec.toNat_ofNat]
  omega

/-- A field of a number is its quotient and remainder. -/
theorem extractLsb'_toNat {w : Nat} (x : BitVec w) (k m : Nat) :
    (x.extractLsb' k m).toNat = x.toNat / 2 ^ k % 2 ^ m := by
  simp [Nat.shiftRight_eq_div_pow]

/-- A bit of a number is the parity of its quotient. -/
theorem getLsbD_eq_div {w : Nat} (x : BitVec w) (k : Nat) : x.getLsbD k = decide (x.toNat / 2 ^ k % 2 = 1) := by
  rw [BitVec.getLsbD, Nat.testBit_eq_decide_div_mod_eq]

theorem Reg.addr_toNat (r : Reg) : r.addr.toNat = r.offset.toNat := by
  cases r <;> rfl

theorem Reg.addr_decodeRead (r : Reg) : (decodeRead r).addr = r.addr := by
  cases r <;> rfl

/-- A write row's address is the address of the register it was decoded from. -/
theorem Reg.addr_decodeWrite {r : Reg} {d : Word} {i : Instr} (h : decodeWrite d r = .instr i) : i.addr = r.addr := by
  cases r <;> simp only [decodeWrite, decodeCommand] at h <;> repeat' split at h
  all_goals first
    | cases h
      rfl
    | cases h

/-- Each row has one address for each index: the row's address is the one on the bus (log entry 17). -/
theorem addr_of_decode {x : Txn} {i : Instr} (h : decode x = .instr i) : i.addr = txnAddr x := by
  unfold decode decodeFields at h
  generalize txnAddr x = a at *
  have ha := a.isLt
  split at h
  · cases h
  rename_i hal
  have h0 : a.toNat % 4 = 0 := by
    have e := congrArg BitVec.toNat (Classical.not_not.mp hal)
    rw [extractLsb'_toNat] at e
    simpa using e
  split at h
  · rename_i h15
    rw [getLsbD_eq_div, decide_eq_true_eq] at h15
    split at h
    · cases h
    cases h
    apply BitVec.eq_of_toNat_eq
    show (lutAddr _).toNat = _
    rw [lutAddr_toNat, extractLsb'_toNat]
    omega
  rename_i h15
  rw [getLsbD_eq_div, decide_eq_true_eq] at h15
  split at h
  · rename_i h14
    rw [getLsbD_eq_div, decide_eq_true_eq] at h14
    have e : msgAddr (a.extractLsb' 2 12) = a := by
      apply BitVec.eq_of_toNat_eq
      rw [msgAddr_toNat, extractLsb'_toNat]
      omega
    split at h <;> cases h <;> exact e
  rename_i h14
  rw [getLsbD_eq_div, decide_eq_true_eq] at h14
  split at h
  · cases h
  rename_i r hr
  have e : r.addr = a := by
    apply BitVec.eq_of_toNat_eq
    rw [Reg.addr_toNat, Reg.offset_of_ofOffset hr, extractLsb'_toNat]
    omega
  split at h
  · exact (Reg.addr_decodeWrite h).trans e
  · cases h
    exact (Reg.addr_decodeRead r).trans e

end Sys2Proof
end

