-- ==== Sys2Proof/Laws/Assembler.lean ====
section
/-! SUPPORT. Sys2Proof/Laws/Assembler.lean: when a text assembles, and which words it gives. -/

namespace Sys2Proof.Machine

/-- The word of WR_MSG is WR_MSG of its cell and byte. -/
theorem decode_encode_wrMsg (n : BitVec 12) (v : Byte) : decode (encode (.wrMsg n v)) = .instr (.wrMsg n v) := by
  have h : (v.setWidth 32).extractLsb' 0 8 = v := by
    apply BitVec.eq_of_toNat_eq
    have := v.isLt
    rw [extractLsb'_toNat, BitVec.toNat_setWidth]
    omega
  show decode (mkTxn true (msgAddr n) (v.setWidth 32)) = _
  rw [decode_mkTxn, decodeFields_msgAddr, h]
  rfl

/-- An assembled write of a cell: the cell is in the RAM, the byte fits, and the word decodes to it. -/
theorem asmWriteMsg_eq_some {b : Build} {n v : Nat} {x : Txn} (h : asmWriteMsg b n v = some x) :
    n < b.msgCap ∧ n < 4096 ∧ v < 256 ∧ decode x = .instr (.wrMsg (BitVec.ofNat 12 n) (BitVec.ofNat 8 v)) := by
  unfold asmWriteMsg at h
  split at h
  · rename_i hc
    cases h
    exact ⟨hc.1, hc.2.1, hc.2.2, decode_encode_wrMsg _ _⟩
  · cases h

/-- ASCII text assembles where the RAM has room for it. -/
theorem asmText_isSome {b : Build} (hb : b.msgCap ≤ 4096) :
    ∀ (text : List Char) (n : Nat), (∀ c ∈ text, c.toNat < 128) → n + text.length ≤ b.msgCap →
      ∃ xs, asmText b n text = some xs
  | [], _, _, _ => ⟨[], rfl⟩
  | c :: cs, n, ha, hl => by
    simp only [List.length_cons] at hl
    obtain ⟨xs, hx⟩ := asmText_isSome hb cs (n + 1) (fun d hd => ha d (List.mem_cons_of_mem _ hd)) (by omega)
    have hc := ha c List.mem_cons_self
    simp only [asmText, hc, if_true, asmWriteMsg, hx]
    rw [if_pos (show n < b.msgCap ∧ n < 4096 ∧ c.toNat < 256 by omega)]
    exact ⟨_, rfl⟩

/-- An assembled text is ASCII and gives one write of a cell for each character, from cell n on. -/
theorem asmText_eq_some {b : Build} : ∀ {text : List Char} {n : Nat} {xs : List Txn}, asmText b n text = some xs →
    (∀ c ∈ text, c.toNat < 128) ∧ xs.length = text.length ∧
    ∀ j c, text[j]? = some c →
      ∃ x, xs[j]? = some x ∧ decode x = .instr (.wrMsg (BitVec.ofNat 12 (n + j)) (BitVec.ofNat 8 c.toNat))
  | [], _, _, h => by
    cases h
    exact ⟨nofun, rfl, fun j c hj => by simp at hj⟩
  | c :: cs, n, xs, h => by
    simp only [asmText] at h
    split at h
    · rename_i hc
      split at h
      · rename_i x ys hx hy
        cases h
        obtain ⟨ha, hl, hj⟩ := asmText_eq_some hy
        refine ⟨List.forall_mem_cons.mpr ⟨hc, ha⟩, by simp [hl], fun j d hd => ?_⟩
        cases j with
        | zero =>
          cases (Option.some.inj hd)
          exact ⟨x, rfl, (asmWriteMsg_eq_some hx).2.2.2⟩
        | succ j =>
          obtain ⟨y, hy1, hy2⟩ := hj j d hd
          exact ⟨y, hy1, by rw [hy2, show n + (j + 1) = n + 1 + j by omega]⟩
      · cases h
    · cases h

end Sys2Proof.Machine
end

