-- ==== Sys2Proof/Laws/Config.lean ====
section
/-! SUPPORT. Sys2Proof/Laws/Config.lean: the bounds of a legal build. -/

namespace Sys2Proof

theorem Build.T_pos {b : Build} (h : b.legal = true) : 1 ≤ b.T := by
  simp only [Build.legal, Build.lutLegal, Bool.and_eq_true, decide_eq_true_eq] at h
  exact h.1.1.1

theorem Build.T_le {b : Build} (h : b.legal = true) : b.T ≤ 8192 := by
  simp only [Build.legal, Build.lutLegal, Bool.and_eq_true, decide_eq_true_eq] at h
  exact h.1.1.2

theorem Build.cap_le {b : Build} (h : b.legal = true) : b.msgCap ≤ 4096 := by
  simp only [Build.legal, Build.capLegal, Bool.and_eq_true, decide_eq_true_eq] at h
  exact h.2.2

theorem Build.M_pos {b : Build} (h : b.legal = true) : 0 < b.M := by
  have := Build.T_pos h
  unfold Build.M
  omega

/-- M ≤ 2^29, so a step and a phase fit their 32-bit registers (10_state.md R25). -/
theorem Build.M_le {b : Build} (h : b.legal = true) : b.M ≤ 2 ^ 29 := by
  have := Build.T_le h
  unfold Build.M
  omega

end Sys2Proof
end

