-- ==== Sys2Proof/Laws/Memory.lean ====
section
/-! SUPPORT. Sys2Proof/Laws/Memory.lean: the message RAM's operations: read after write, and that a write keeps the canonical form and the
capacity. -/

namespace Sys2Proof.Machine

@[simp] theorem Memory.read_nil (n : Nat) : Memory.read [] n = none := rfl

@[simp] theorem Memory.wf_nil : Memory.wf [] = true := rfl

@[simp] theorem Memory.below_nil (cap : Nat) : Memory.below cap [] = true := rfl

/-- A read of the cell just written gives the byte. -/
theorem Memory.read_write_same (m : Memory) (n : Nat) (v : Byte) : (m.write n v).read n = some v := by
  induction m with
  | nil => simp [Memory.write, Memory.read]
  | cons c rest ih =>
    obtain ⟨a, w⟩ := c
    unfold Memory.write
    split
    · simp [Memory.read]
    · split
      · simp [Memory.read]
      · rename_i hne
        simp [Memory.read, hne, ih]

/-- A write leaves every other cell alone. -/
theorem Memory.read_write_other (m : Memory) {n k : Nat} (v : Byte) (h : k ≠ n) :
    (m.write n v).read k = m.read k := by
  induction m with
  | nil => simp [Memory.write, Memory.read, h]
  | cons c rest ih =>
    obtain ⟨a, w⟩ := c
    unfold Memory.write
    split
    · simp [Memory.read, h]
    · split
      · rename_i ha
        subst ha
        simp [Memory.read, h]
      · simp [Memory.read, ih]

/-- The canonical form, one cell at a time: the tail is canonical and every cell of it lies higher. -/
theorem Memory.wf_cons {a : Nat} {v : Byte} {m : Memory} :
    Memory.wf ((a, v) :: m) = true ↔ m.wf = true ∧ ∀ c ∈ m, a < c.1 := by
  induction m generalizing a v with
  | nil => simp [Memory.wf]
  | cons d rest ih =>
    obtain ⟨b, w⟩ := d
    simp only [Memory.wf, Bool.and_eq_true, decide_eq_true_eq, List.mem_cons, forall_eq_or_imp]
    constructor
    · rintro ⟨hab, hm⟩
      exact ⟨hm, hab, fun c hc => Nat.lt_trans hab ((ih.mp hm).2 c hc)⟩
    · rintro ⟨hm, hab, -⟩
      exact ⟨hab, hm⟩

/-- Every cell listed after a write was listed before, or is the one written. -/
theorem Memory.mem_write {m : Memory} {n : Nat} {v : Byte} {c : Host.Cell} (h : c ∈ m.write n v) :
    c = (n, v) ∨ c ∈ m := by
  induction m with
  | nil => simpa [Memory.write] using h
  | cons d rest ih =>
    obtain ⟨a, w⟩ := d
    unfold Memory.write at h
    split at h
    · simpa using h
    · split at h
      · rcases List.mem_cons.mp h with h | h
        · exact .inl h
        · exact .inr (List.mem_cons_of_mem _ h)
      · rcases List.mem_cons.mp h with h | h
        · exact .inr (h ▸ List.mem_cons_self ..)
        · exact (ih h).imp id (List.mem_cons_of_mem _)

/-- A write keeps the canonical form. -/
theorem Memory.write_wf {m : Memory} (n : Nat) (v : Byte) (h : m.wf = true) : (m.write n v).wf = true := by
  induction m with
  | nil => rfl
  | cons d rest ih =>
    obtain ⟨a, w⟩ := d
    obtain ⟨hr, ha⟩ := Memory.wf_cons.mp h
    unfold Memory.write
    split
    · rename_i hlt
      refine Memory.wf_cons.mpr ⟨h, fun c hc => ?_⟩
      rcases List.mem_cons.mp hc with rfl | hc
      · exact hlt
      · exact Nat.lt_trans hlt (ha c hc)
    · split
      · rename_i heq
        subst heq
        exact Memory.wf_cons.mpr ⟨hr, ha⟩
      · refine Memory.wf_cons.mpr ⟨ih hr, fun c hc => ?_⟩
        rcases Memory.mem_write hc with rfl | hc
        · show a < n
          omega
        · exact ha c hc

/-- A write below the capacity keeps the RAM below it. -/
theorem Memory.write_below {m : Memory} {cap n : Nat} (v : Byte) (hn : n < cap) (h : m.below cap = true) :
    (m.write n v).below cap = true := by
  simp only [Memory.below, List.all_eq_true, decide_eq_true_eq] at h ⊢
  intro c hc
  rcases Memory.mem_write hc with rfl | hc
  · exact hn
  · exact h c hc

/-- A cell past the capacity is never listed. -/
theorem Memory.read_eq_none_of_below {m : Memory} {cap n : Nat} (h : m.below cap = true) (hn : cap ≤ n) :
    m.read n = none := by
  induction m with
  | nil => rfl
  | cons c rest ih =>
    obtain ⟨a, v⟩ := c
    simp only [Memory.below, List.all_cons, Bool.and_eq_true, decide_eq_true_eq] at h
    have hne : ¬ n = a := by have := h.1; omega
    simpa [Memory.read, hne] using ih h.2

end Sys2Proof.Machine
end

