-- ==== Sys2Proof/Laws/State.lean ====
section
/-! SUPPORT. Sys2Proof/Laws/State.lean: one lemma per field per named update of the state, each true by unfolding. -/

namespace Sys2Proof.Machine

/-! ## respond -/

@[simp] theorem State.respond_build (s : State) (v : Word) : (s.respond v).build = s.build := rfl
@[simp] theorem State.respond_stream (s : State) (v : Word) : (s.respond v).stream = s.stream := rfl
@[simp] theorem State.respond_fs (s : State) (v : Word) : (s.respond v).fs = s.fs := rfl
@[simp] theorem State.respond_f0 (s : State) (v : Word) : (s.respond v).f0 = s.f0 := rfl
@[simp] theorem State.respond_f1 (s : State) (v : Word) : (s.respond v).f1 = s.f1 := rfl
@[simp] theorem State.respond_baud (s : State) (v : Word) : (s.respond v).baud = s.baud := rfl
@[simp] theorem State.respond_tstartMs (s : State) (v : Word) : (s.respond v).tstartMs = s.tstartMs := rfl
@[simp] theorem State.respond_tstopMs (s : State) (v : Word) : (s.respond v).tstopMs = s.tstopMs := rfl
@[simp] theorem State.respond_msgLen (s : State) (v : Word) : (s.respond v).msgLen = s.msgLen := rfl
@[simp] theorem State.respond_preSlots (s : State) (v : Word) : (s.respond v).preSlots = s.preSlots := rfl
@[simp] theorem State.respond_postSlots (s : State) (v : Word) : (s.respond v).postSlots = s.postSlots := rfl
@[simp] theorem State.respond_endSlot (s : State) (v : Word) : (s.respond v).endSlot = s.endSlot := rfl
@[simp] theorem State.respond_step0 (s : State) (v : Word) : (s.respond v).step0 = s.step0 := rfl
@[simp] theorem State.respond_step1 (s : State) (v : Word) : (s.respond v).step1 = s.step1 := rfl
@[simp] theorem State.respond_slot (s : State) (v : Word) : (s.respond v).slot = s.slot := rfl
@[simp] theorem State.respond_phase (s : State) (v : Word) : (s.respond v).phase = s.phase := rfl
@[simp] theorem State.respond_err (s : State) (v : Word) : (s.respond v).err = s.err := rfl
@[simp] theorem State.respond_errInfo (s : State) (v : Word) : (s.respond v).errInfo = s.errInfo := rfl
@[simp] theorem State.respond_msg (s : State) (v : Word) : (s.respond v).msg = s.msg := rfl
@[simp] theorem State.respond_rdata (s : State) (v : Word) : (s.respond v).rdata = v := rfl
@[simp] theorem State.respond_port (s : State) (v : Word) : (s.respond v).port = s.port := rfl

/-! ## raise Error -/

@[simp] theorem State.raiseError_build (s : State) (c : Cause) (r : BitVec 2) (a : Addr) : (s.raiseError c r a).build = s.build := rfl
@[simp] theorem State.raiseError_stream (s : State) (c : Cause) (r : BitVec 2) (a : Addr) : (s.raiseError c r a).stream = s.stream := rfl
@[simp] theorem State.raiseError_fs (s : State) (c : Cause) (r : BitVec 2) (a : Addr) : (s.raiseError c r a).fs = s.fs := rfl
@[simp] theorem State.raiseError_f0 (s : State) (c : Cause) (r : BitVec 2) (a : Addr) : (s.raiseError c r a).f0 = s.f0 := rfl
@[simp] theorem State.raiseError_f1 (s : State) (c : Cause) (r : BitVec 2) (a : Addr) : (s.raiseError c r a).f1 = s.f1 := rfl
@[simp] theorem State.raiseError_baud (s : State) (c : Cause) (r : BitVec 2) (a : Addr) : (s.raiseError c r a).baud = s.baud := rfl
@[simp] theorem State.raiseError_tstartMs (s : State) (c : Cause) (r : BitVec 2) (a : Addr) : (s.raiseError c r a).tstartMs = s.tstartMs := rfl
@[simp] theorem State.raiseError_tstopMs (s : State) (c : Cause) (r : BitVec 2) (a : Addr) : (s.raiseError c r a).tstopMs = s.tstopMs := rfl
@[simp] theorem State.raiseError_msgLen (s : State) (c : Cause) (r : BitVec 2) (a : Addr) : (s.raiseError c r a).msgLen = s.msgLen := rfl
@[simp] theorem State.raiseError_preSlots (s : State) (c : Cause) (r : BitVec 2) (a : Addr) : (s.raiseError c r a).preSlots = s.preSlots := rfl
@[simp] theorem State.raiseError_postSlots (s : State) (c : Cause) (r : BitVec 2) (a : Addr) : (s.raiseError c r a).postSlots = s.postSlots := rfl
@[simp] theorem State.raiseError_endSlot (s : State) (c : Cause) (r : BitVec 2) (a : Addr) : (s.raiseError c r a).endSlot = s.endSlot := rfl
@[simp] theorem State.raiseError_step0 (s : State) (c : Cause) (r : BitVec 2) (a : Addr) : (s.raiseError c r a).step0 = s.step0 := rfl
@[simp] theorem State.raiseError_step1 (s : State) (c : Cause) (r : BitVec 2) (a : Addr) : (s.raiseError c r a).step1 = s.step1 := rfl
@[simp] theorem State.raiseError_slot (s : State) (c : Cause) (r : BitVec 2) (a : Addr) : (s.raiseError c r a).slot = s.slot := rfl
@[simp] theorem State.raiseError_phase (s : State) (c : Cause) (r : BitVec 2) (a : Addr) : (s.raiseError c r a).phase = s.phase := rfl
@[simp] theorem State.raiseError_err (s : State) (c : Cause) (r : BitVec 2) (a : Addr) : (s.raiseError c r a).err = s.err ||| c.flag := rfl
@[simp] theorem State.raiseError_errInfo (s : State) (c : Cause) (r : BitVec 2) (a : Addr) : (s.raiseError c r a).errInfo = (if s.err = 0 then errInfoWord c r a else s.errInfo) := rfl
@[simp] theorem State.raiseError_msg (s : State) (c : Cause) (r : BitVec 2) (a : Addr) : (s.raiseError c r a).msg = s.msg := rfl
@[simp] theorem State.raiseError_rdata (s : State) (c : Cause) (r : BitVec 2) (a : Addr) : (s.raiseError c r a).rdata = s.rdata := rfl
@[simp] theorem State.raiseError_port (s : State) (c : Cause) (r : BitVec 2) (a : Addr) : (s.raiseError c r a).port = s.port := rfl

/-! ## START -/

@[simp] theorem State.startStream_build (s : State) : (s.startStream).build = s.build := rfl
@[simp] theorem State.startStream_stream (s : State) : (s.startStream).stream = .run := rfl
@[simp] theorem State.startStream_fs (s : State) : (s.startStream).fs = s.fs := rfl
@[simp] theorem State.startStream_f0 (s : State) : (s.startStream).f0 = s.f0 := rfl
@[simp] theorem State.startStream_f1 (s : State) : (s.startStream).f1 = s.f1 := rfl
@[simp] theorem State.startStream_baud (s : State) : (s.startStream).baud = s.baud := rfl
@[simp] theorem State.startStream_tstartMs (s : State) : (s.startStream).tstartMs = s.tstartMs := rfl
@[simp] theorem State.startStream_tstopMs (s : State) : (s.startStream).tstopMs = s.tstopMs := rfl
@[simp] theorem State.startStream_msgLen (s : State) : (s.startStream).msgLen = s.msgLen := rfl
@[simp] theorem State.startStream_preSlots (s : State) : (s.startStream).preSlots = BitVec.ofNat 32 (slotCount s.tstartMs s.baud) := rfl
@[simp] theorem State.startStream_postSlots (s : State) : (s.startStream).postSlots = BitVec.ofNat 32 (slotCount s.tstopMs s.baud) := rfl
@[simp] theorem State.startStream_endSlot (s : State) : (s.startStream).endSlot = 
    BitVec.ofNat 32 (timelineLength (slotCount s.tstartMs s.baud) s.msgLen.toNat (slotCount s.tstopMs s.baud)) := rfl
@[simp] theorem State.startStream_step0 (s : State) : (s.startStream).step0 = BitVec.ofNat 32 (phaseStep s.build s.f0 s.fs) := rfl
@[simp] theorem State.startStream_step1 (s : State) : (s.startStream).step1 = BitVec.ofNat 32 (phaseStep s.build s.f1 s.fs) := rfl
@[simp] theorem State.startStream_slot (s : State) : (s.startStream).slot = 0 := rfl
@[simp] theorem State.startStream_phase (s : State) : (s.startStream).phase = 0 := rfl
@[simp] theorem State.startStream_err (s : State) : (s.startStream).err = s.err := rfl
@[simp] theorem State.startStream_errInfo (s : State) : (s.startStream).errInfo = s.errInfo := rfl
@[simp] theorem State.startStream_msg (s : State) : (s.startStream).msg = s.msg := rfl
@[simp] theorem State.startStream_rdata (s : State) : (s.startStream).rdata = s.rdata := rfl
@[simp] theorem State.startStream_port (s : State) : (s.startStream).port = s.port := rfl

/-! ## reset -/

@[simp] theorem State.takeReset_build (s : State) : (s.takeReset).build = s.build := rfl
@[simp] theorem State.takeReset_stream (s : State) : (s.takeReset).stream = (State.resetOf s.build).stream := rfl
@[simp] theorem State.takeReset_fs (s : State) : (s.takeReset).fs = (State.resetOf s.build).fs := rfl
@[simp] theorem State.takeReset_f0 (s : State) : (s.takeReset).f0 = (State.resetOf s.build).f0 := rfl
@[simp] theorem State.takeReset_f1 (s : State) : (s.takeReset).f1 = (State.resetOf s.build).f1 := rfl
@[simp] theorem State.takeReset_baud (s : State) : (s.takeReset).baud = (State.resetOf s.build).baud := rfl
@[simp] theorem State.takeReset_tstartMs (s : State) : (s.takeReset).tstartMs = (State.resetOf s.build).tstartMs := rfl
@[simp] theorem State.takeReset_tstopMs (s : State) : (s.takeReset).tstopMs = (State.resetOf s.build).tstopMs := rfl
@[simp] theorem State.takeReset_msgLen (s : State) : (s.takeReset).msgLen = (State.resetOf s.build).msgLen := rfl
@[simp] theorem State.takeReset_preSlots (s : State) : (s.takeReset).preSlots = (State.resetOf s.build).preSlots := rfl
@[simp] theorem State.takeReset_postSlots (s : State) : (s.takeReset).postSlots = (State.resetOf s.build).postSlots := rfl
@[simp] theorem State.takeReset_endSlot (s : State) : (s.takeReset).endSlot = (State.resetOf s.build).endSlot := rfl
@[simp] theorem State.takeReset_step0 (s : State) : (s.takeReset).step0 = (State.resetOf s.build).step0 := rfl
@[simp] theorem State.takeReset_step1 (s : State) : (s.takeReset).step1 = (State.resetOf s.build).step1 := rfl
@[simp] theorem State.takeReset_slot (s : State) : (s.takeReset).slot = (State.resetOf s.build).slot := rfl
@[simp] theorem State.takeReset_phase (s : State) : (s.takeReset).phase = (State.resetOf s.build).phase := rfl
@[simp] theorem State.takeReset_err (s : State) : (s.takeReset).err = (State.resetOf s.build).err := rfl
@[simp] theorem State.takeReset_errInfo (s : State) : (s.takeReset).errInfo = (State.resetOf s.build).errInfo := rfl
@[simp] theorem State.takeReset_msg (s : State) : (s.takeReset).msg = (State.resetOf s.build).msg := rfl
@[simp] theorem State.takeReset_rdata (s : State) : (s.takeReset).rdata = (State.resetOf s.build).rdata := rfl
@[simp] theorem State.takeReset_port (s : State) : (s.takeReset).port = s.port := rfl

/-! ## the next transaction -/

@[simp] theorem State.withFetchWord_build (s : State) (nbits w : Nat) : (s.withFetchWord nbits w).build = s.build := rfl
@[simp] theorem State.withFetchWord_stream (s : State) (nbits w : Nat) : (s.withFetchWord nbits w).stream = s.stream := rfl
@[simp] theorem State.withFetchWord_fs (s : State) (nbits w : Nat) : (s.withFetchWord nbits w).fs = s.fs := rfl
@[simp] theorem State.withFetchWord_f0 (s : State) (nbits w : Nat) : (s.withFetchWord nbits w).f0 = s.f0 := rfl
@[simp] theorem State.withFetchWord_f1 (s : State) (nbits w : Nat) : (s.withFetchWord nbits w).f1 = s.f1 := rfl
@[simp] theorem State.withFetchWord_baud (s : State) (nbits w : Nat) : (s.withFetchWord nbits w).baud = s.baud := rfl
@[simp] theorem State.withFetchWord_tstartMs (s : State) (nbits w : Nat) : (s.withFetchWord nbits w).tstartMs = s.tstartMs := rfl
@[simp] theorem State.withFetchWord_tstopMs (s : State) (nbits w : Nat) : (s.withFetchWord nbits w).tstopMs = s.tstopMs := rfl
@[simp] theorem State.withFetchWord_msgLen (s : State) (nbits w : Nat) : (s.withFetchWord nbits w).msgLen = s.msgLen := rfl
@[simp] theorem State.withFetchWord_preSlots (s : State) (nbits w : Nat) : (s.withFetchWord nbits w).preSlots = s.preSlots := rfl
@[simp] theorem State.withFetchWord_postSlots (s : State) (nbits w : Nat) : (s.withFetchWord nbits w).postSlots = s.postSlots := rfl
@[simp] theorem State.withFetchWord_endSlot (s : State) (nbits w : Nat) : (s.withFetchWord nbits w).endSlot = s.endSlot := rfl
@[simp] theorem State.withFetchWord_step0 (s : State) (nbits w : Nat) : (s.withFetchWord nbits w).step0 = s.step0 := rfl
@[simp] theorem State.withFetchWord_step1 (s : State) (nbits w : Nat) : (s.withFetchWord nbits w).step1 = s.step1 := rfl
@[simp] theorem State.withFetchWord_slot (s : State) (nbits w : Nat) : (s.withFetchWord nbits w).slot = s.slot := rfl
@[simp] theorem State.withFetchWord_phase (s : State) (nbits w : Nat) : (s.withFetchWord nbits w).phase = s.phase := rfl
@[simp] theorem State.withFetchWord_err (s : State) (nbits w : Nat) : (s.withFetchWord nbits w).err = s.err := rfl
@[simp] theorem State.withFetchWord_errInfo (s : State) (nbits w : Nat) : (s.withFetchWord nbits w).errInfo = s.errInfo := rfl
@[simp] theorem State.withFetchWord_msg (s : State) (nbits w : Nat) : (s.withFetchWord nbits w).msg = s.msg := rfl
@[simp] theorem State.withFetchWord_rdata (s : State) (nbits w : Nat) : (s.withFetchWord nbits w).rdata = s.rdata := rfl
@[simp] theorem State.withFetchWord_port (s : State) (nbits w : Nat) : (s.withFetchWord nbits w).port = .txn (wordOfBits nbits w) :: s.port := rfl

end Sys2Proof.Machine
end

