-- ==== Sys2Proof/Laws/Ops.lean ====
section
/-! SUPPORT. Sys2Proof/Laws/Ops.lean: what each shared operation can do, said once. -/

namespace Sys2Proof.Machine

/-! ## The build -/

/-- A legal build is not refused, and an illegal one is. -/
theorem buildRefusal_eq_none {b : Build} : buildRefusal b = none ↔ b.legal = true := by
  unfold buildRefusal Build.legal
  cases b.lutLegal <;> cases b.capLegal <;> simp

/-! ## The table -/

/-- The table answers exactly below T. -/
theorem lutRead_isSome {b : Build} {k : Nat} : (lutRead b k).isSome = true ↔ k < b.T := by
  simp [lutRead, Build.T]

theorem lutRead_eq_none {b : Build} {k : Nat} : lutRead b k = none ↔ b.T ≤ k := by
  simp [lutRead, Build.T]

/-- What the table answers is one of its words. -/
theorem lutRead_mem {b : Build} {k : Nat} {w : Sample} (h : lutRead b k = some w) : w ∈ b.lut :=
  List.mem_of_getElem? h

/-! ## The exact arithmetic -/

theorem phaseStep_lt {b : Build} (h : b.legal = true) (f fs : Word) : phaseStep b f fs < b.M :=
  Nat.mod_lt _ (Build.M_pos h)

theorem nextPhase_lt {b : Build} (h : b.legal = true) (idx step : Word) : nextPhase b idx step < b.M :=
  Nat.mod_lt _ (Build.M_pos h)

/-- An index taken from a phase below M is below T (20_memory.md R72). -/
theorem tableIndex_lt {b : Build} {idx : Nat} (h : idx < b.M) : tableIndex idx < b.T := by
  unfold tableIndex Build.M at *
  omega

/-! ## Responses, errors and locked writes -/

/-- A transaction that fails completes: only ERR, ERR_INFO and `rdata` differ. -/
theorem failWith_eq (c : Cause) (r : BitVec 2) (a : Addr) (s : State) :
    failWith c r a s = .next { s with
      err := s.err ||| c.flag
      errInfo := if s.err = 0 then errInfoWord c r a else s.errInfo
      rdata := 0 } := rfl

theorem answer_eq (v : Word) (s : State) : answer v s = .next { s with rdata := v } := rfl

theorem written_eq (s : State) : written s = .next { s with rdata := 0 } := rfl

/-- A locked write completes in every state: LOCK_ERR in RUN, else the target is written. -/
theorem lockedWrite_cases {a : Addr} {s s' t : State} (h : lockedWrite a s s' = .next t) :
    (s.stream = .run ∧ t = (s.raiseError .lockErr 0 a).respond 0) ∨ (s.stream ≠ .run ∧ t = s'.respond 0) := by
  unfold lockedWrite at h
  split at h
  · rename_i hr
    exact .inl ⟨hr, (Host.Outcome.next.inj h).symm⟩
  · rename_i hr
    exact .inr ⟨hr, (Host.Outcome.next.inj h).symm⟩

theorem lockedWrite_run {a : Addr} {s s' : State} (h : s.stream = .run) :
    lockedWrite a s s' = failWith .lockErr 0 a s := by
  simp [lockedWrite, h]

theorem lockedWrite_free {a : Addr} {s s' : State} (h : s.stream ≠ .run) :
    lockedWrite a s s' = written s' := by
  simp [lockedWrite, h]

end Sys2Proof.Machine
end

