-- ==== Sys2Proof/Laws/Stream.lean ====
section
/-! SUPPORT. Sys2Proof/Laws/Stream.lean: what the commands, the framer, the pull and a step can do, each said once. -/

namespace Sys2Proof.Machine

/-! ## Commands -/

/-- An answer of CMD_START is one of its four refusals or the latching, each with its test. -/
theorem execCmdStart_cases {s t : State} (h : execCmdStart s = .next t) :
    (s.stream = .run ∧ t = (s.raiseError .cmdErr 0 Reg.cmd.addr).respond 0) ∨
    (s.stream ≠ .run ∧ s.fs = 0 ∧ t = (s.raiseError .cfgErr 1 Reg.cmd.addr).respond 0) ∨
    (s.stream ≠ .run ∧ s.fs ≠ 0 ∧ s.msgLen.toNat > s.build.msgCap ∧
      t = (s.raiseError .cfgErr 2 Reg.cmd.addr).respond 0) ∨
    (s.stream ≠ .run ∧ s.fs ≠ 0 ∧ s.msgLen.toNat ≤ s.build.msgCap ∧
      timelineLength (slotCount s.tstartMs s.baud) s.msgLen.toNat (slotCount s.tstopMs s.baud) > 2 ^ 32 - 1 ∧
      t = (s.raiseError .cfgErr 3 Reg.cmd.addr).respond 0) ∨
    (s.stream ≠ .run ∧ s.fs ≠ 0 ∧ s.msgLen.toNat ≤ s.build.msgCap ∧
      timelineLength (slotCount s.tstartMs s.baud) s.msgLen.toNat (slotCount s.tstopMs s.baud) ≤ 2 ^ 32 - 1 ∧
      t = s.startStream.respond 0) := by
  unfold execCmdStart at h
  split at h
  · exact .inl ⟨‹_›, (Host.Outcome.next.inj h).symm⟩
  · split at h
    · exact .inr (.inl ⟨‹_›, ‹_›, (Host.Outcome.next.inj h).symm⟩)
    · split at h
      · exact .inr (.inr (.inl ⟨‹_›, ‹_›, ‹_›, (Host.Outcome.next.inj h).symm⟩))
      · split at h
        · exact .inr (.inr (.inr (.inl ⟨‹_›, ‹_›, Nat.not_lt.mp ‹_›, ‹_›, (Host.Outcome.next.inj h).symm⟩)))
        · exact .inr (.inr (.inr (.inr
            ⟨‹_›, ‹_›, Nat.not_lt.mp ‹_›, Nat.not_lt.mp ‹_›, (Host.Outcome.next.inj h).symm⟩)))

/-! ## The framer -/

/-- A data bit is the byte's bit, or the cell is unwritten, or the position is outside the frame. -/
theorem dataBit_cases (m : Memory) (len b p : Nat) :
    (p ≤ 7 ∧ b < len ∧ ∃ v, m.read b = some v ∧ dataBit m len b p = .slot (v.getLsbD p) false) ∨
    (p ≤ 7 ∧ b < len ∧ m.read b = none ∧ dataBit m len b p = .fault .unwrittenMsg) ∨
    ((7 < p ∨ len ≤ b) ∧ dataBit m len b p = .fault .framerInternal) := by
  by_cases h : p > 7 ∨ b ≥ len
  · exact .inr (.inr ⟨h, by simp [dataBit, h]⟩)
  · have hp : p ≤ 7 := by omega
    have hb : b < len := by omega
    cases hr : m.read b with
    | none => exact .inr (.inl ⟨hp, hb, rfl, by simp [dataBit, h, hr]⟩)
    | some v => exact .inl ⟨hp, hb, v, rfl, by simp [dataBit, h, hr]⟩

/-- The framer of equal reads is equal: it depends on P, L, END and the cells alone (42_bit_framer.md R170). -/
theorem frame_congr {s t : State} (hp : s.preSlots = t.preSlots) (hl : s.msgLen = t.msgLen)
    (he : s.endSlot = t.endSlot) (hm : ∀ n, s.msg.read n = t.msg.read n) (i : Nat) : frame s i = frame t i := by
  simp only [frame, frameSlot, dataBit, hp, hl, he, hm]

/-! ## The pull -/

/-- A produced sample: the table was read at the new phase's integer part. -/
theorem produceSample_cases {bit : Bool} {s t : State} (h : produceSample bit s = .next t) :
    ∃ w, lutRead s.build (tableIndex (nextPhase s.build s.phase (s.stepFor bit))) = some w ∧
      t = { s with
        slot := s.slot + 1
        phase := BitVec.ofNat 32 (nextPhase s.build s.phase (s.stepFor bit))
        rdata := sampleResponse w } := by
  unfold produceSample at h
  simp only at h
  split at h
  · exact ⟨_, ‹_›, (Host.Outcome.next.inj h).symm⟩
  · cases h

/-- A pull that answers: no stream, an ended stream, the end of the timeline, or a sample. -/
theorem execPull_cases {s t : State} (h : execPull s = .next t) :
    (s.stream = .idle ∧ t = (s.raiseError .pullErr 0 Reg.sample.addr).respond noStreamResponse) ∨
    (s.stream = .done ∧ t = s.respond eosResponse) ∨
    (s.stream = .run ∧ (∃ bit, frame s s.slot.toNat = .slot bit true) ∧
      t = { s with stream := .done, rdata := eosResponse }) ∨
    (s.stream = .run ∧ ∃ bit, frame s s.slot.toNat = .slot bit false ∧ produceSample bit s = .next t) := by
  unfold execPull at h
  split at h
  · exact .inl ⟨‹_›, (Host.Outcome.next.inj h).symm⟩
  · exact .inr (.inl ⟨‹_›, (Host.Outcome.next.inj h).symm⟩)
  · unfold pullRunning at h
    split at h
    · cases h
    · exact .inr (.inr (.inl ⟨‹_›, ⟨_, ‹_›⟩, (Host.Outcome.next.inj h).symm⟩))
    · exact .inr (.inr (.inr ⟨‹_›, _, ‹_›, h⟩))

/-! ## A step -/

/-- A step that answers: the build is legal, and nothing was pending, or a reset was taken, or the next transaction was performed. -/
theorem step_cases {s t : State} (h : step s = .next t) :
    s.build.legal = true ∧
    ((s.port = [] ∧ t = s) ∨
     (∃ rest, s.port = .reset :: rest ∧ t = { State.resetOf s.build with port := rest }) ∨
     (∃ x rest, s.port = .txn x :: rest ∧ perform x { s with port := rest } = .next t)) := by
  unfold step at h
  split at h
  · cases h
  · refine ⟨buildRefusal_eq_none.mp ‹_›, ?_⟩
    unfold handleEvent at h
    split at h
    · exact .inl ⟨‹_›, (Host.Outcome.next.inj h).symm⟩
    · exact .inr (.inl ⟨_, ‹_›, (Host.Outcome.next.inj h).symm⟩)
    · exact .inr (.inr ⟨_, _, ‹_›, h⟩)

/-- A performed transaction is a row's effect or one recorded error. -/
theorem perform_cases (x : Txn) (s : State) :
    (∃ i, decode x = .instr i ∧ perform x s = exec i s) ∨
    (∃ e, decode x = .illegal e ∧ perform x s = failWith (illegalCause s.build e) 0 (txnAddr x) s) := by
  cases h : decode x with
  | instr i => exact .inl ⟨i, rfl, by simp [perform, h]⟩
  | illegal e => exact .inr ⟨e, rfl, by simp [perform, h]⟩

end Sys2Proof.Machine
end

