-- ==== Sys2Proof/Laws/Effects.lean ====
section
/-! SUPPORT. Sys2Proof/Laws/Effects.lean: an error as its record, the framer as the timeline, and everything a row can do when it answers. -/

namespace Sys2Proof.Machine

/-! ## Errors -/

theorem Cause.flag_eq (c : Cause) : c.flag = BitVec.ofNat 32 (2 ^ c.code.toNat) := by
  cases c <;> rfl

theorem Cause.code_le (c : Cause) : c.code.toNat ≤ 5 := by
  cases c <;> decide

/-- ERR_INFO's captured word by the weights of its fields. -/
theorem errInfoWord_toNat (c : Cause) (r : BitVec 2) (a : Addr) :
    (errInfoWord c r a).toNat = 2 ^ 31 + r.toNat * 2 ^ 20 + c.code.toNat * 2 ^ 16 + a.toNat := by
  show BitVec.toNat (w := 1 + 9 + 2 + 1 + 3 + 16) (1#1 ++ 0#9 ++ r ++ 0#1 ++ c.code ++ a) = _
  have hr := r.isLt
  have hc := c.code.isLt
  have ha := a.isLt
  rw [BitVec.toNat_append, BitVec.toNat_append, BitVec.toNat_append, BitVec.toNat_append, BitVec.toNat_append,
    ← Nat.shiftLeft_add_eq_or_of_lt ha, ← Nat.shiftLeft_add_eq_or_of_lt hc,
    ← Nat.shiftLeft_add_eq_or_of_lt (by simp), ← Nat.shiftLeft_add_eq_or_of_lt hr,
    ← Nat.shiftLeft_add_eq_or_of_lt (by simp)]
  simp only [Nat.shiftLeft_eq, BitVec.toNat_ofNat]
  omega

/-- A raised error with rdata 0 is its record. -/
theorem raiseError_eq_errorRecorded (s : State) (c : Cause) (r : BitVec 2) (a : Addr) :
    (s.raiseError c r a).respond 0 = errorRecorded s c.code.toNat r.toNat a.toNat := by
  have h : errInfoWord c r a =
      BitVec.ofNat 32 (2 ^ 31 + r.toNat * 2 ^ 20 + c.code.toNat * 2 ^ 16 + a.toNat) := by
    rw [← errInfoWord_toNat, BitVec.ofNat_toNat, BitVec.setWidth_eq]
  simp [State.raiseError, State.respond, errorRecorded, c.flag_eq, h]

/-- A transaction that fails answers the record of its error. -/
theorem failWith_eq_errorRecorded (s : State) (c : Cause) (r : BitVec 2) (a : Addr) :
    failWith c r a s = .next (errorRecorded s c.code.toNat r.toNat a.toNat) := by
  rw [← raiseError_eq_errorRecorded]
  rfl

/-! ## START -/

/-- END as CMD_START computes it. -/
theorem timelineLength_eq_configuredEnd (s : State) :
    timelineLength (slotCount s.tstartMs s.baud) s.msgLen.toNat (slotCount s.tstopMs s.baud) = configuredEnd s := rfl

theorem execCmdStart_accepted {s : State} (h : StartAccepted s) : execCmdStart s = written s.startStream := by
  obtain ⟨h1, h2, h3, h4⟩ := h
  simp only [execCmdStart, timelineLength_eq_configuredEnd, h1, h2, Nat.not_lt.mpr h3, gt_iff_lt, if_false]
  rw [if_neg (by omega)]

/-- A START that is not accepted is one recorded error, with no other effect. -/
theorem execCmdStart_refused {s : State} (h : ¬ StartAccepted s) :
    ∃ c r, (c = .cfgErr ∨ c = .cmdErr ∧ r = 0) ∧ execCmdStart s = failWith c r Reg.cmd.addr s := by
  unfold execCmdStart
  split
  · exact ⟨_, _, .inr ⟨rfl, rfl⟩, rfl⟩
  split
  · exact ⟨_, _, .inl rfl, rfl⟩
  split
  · exact ⟨_, _, .inl rfl, rfl⟩
  split
  · exact ⟨_, _, .inl rfl, rfl⟩
  rw [timelineLength_eq_configuredEnd] at *
  exact absurd ⟨‹_›, ‹_›, by omega, by omega⟩ h

/-! ## The phase and the sample -/

/-- On a legal build the new phase fits its register. -/
theorem toNat_nextPhase {b : Build} (hb : b.legal = true) (idx step : Word) :
    (BitVec.ofNat 32 (nextPhase b idx step)).toNat = (idx.toNat + step.toNat) % b.M := by
  have h := nextPhase_lt hb idx step
  have hM := Build.M_le hb
  rw [BitVec.toNat_ofNat, Nat.mod_eq_of_lt (by omega)]
  rfl

/-- On a legal build the table answers at the new phase. -/
theorem lutRead_nextPhase {b : Build} (hb : b.legal = true) (idx step : Word) :
    ∃ w, lutRead b (tableIndex (nextPhase b idx step)) = some w :=
  Option.isSome_iff_exists.mp (lutRead_isSome.mpr (tableIndex_lt (nextPhase_lt hb idx step)))

/-- VALID is worth 2^16, and the sample stands below it. -/
theorem sampleResponse_eq (w : Sample) : sampleResponse w = BitVec.ofNat 32 (0x10000 + w.toNat) := by
  apply BitVec.eq_of_toNat_eq
  have hw := w.isLt
  have h : (0x10000 : Nat) ||| w.toNat = 0x10000 + w.toNat := by
    have := Nat.shiftLeft_add_eq_or_of_lt (i := 16) (b := w.toNat) (by omega) 1
    simpa [Nat.shiftLeft_eq] using this.symm
  simp only [sampleResponse, BitVec.toNat_or, BitVec.toNat_setWidth, BitVec.toNat_ofNat]
  rw [Nat.mod_eq_of_lt (show w.toNat < 2 ^ 32 by omega),
    Nat.mod_eq_of_lt (show 0x10000 + w.toNat < 2 ^ 32 by omega)]
  exact h

/-! ## The framer -/

/-- A finished frame stands at or past END. -/
theorem frame_done {s : State} {i : Nat} {bit : Bool} (h : frame s i = .slot bit true) : s.endSlot.toNat ≤ i := by
  apply Nat.le_of_not_lt
  intro hc
  simp only [frame] at h
  split at h
  · cases h
  · split at h
    · omega
    · split at h
      · simp only [frameSlot, dataBit] at h
        repeat' split at h
        all_goals cases h
      · cases h

/-- A model fault of the framer comes before END only. -/
theorem frame_fault_lt {s : State} {i : Nat} {f : Fault} (h : frame s i = .fault f) : i < s.endSlot.toNat := by
  apply Nat.lt_of_not_le
  intro hc
  unfold frame at h
  simp only [ge_iff_le, hc, if_true] at h
  split at h <;> cases h

/-- Past P and at or past END the frame is done. -/
theorem frame_end {s : State} {i : Nat} (hp : s.preSlots.toNat ≤ i) (he : s.endSlot.toNat ≤ i) :
    frame s i = .slot false true := by
  simp only [frame]
  rw [if_neg (by omega), if_pos he]

/-- Before END the framer gives the timeline's bit, or faults on the one unwritten cell it needs. No premise on P, L, END is needed. -/
theorem frame_before_end (s : State) (i : Nat) (hi : i < s.endSlot.toNat) :
    (SlotReadable s i → frame s i = .slot (timelineBit s i) false) ∧
    (∀ f, frame s i = .fault f →
      f = .unwrittenMsg ∧ ∃ b k, dataSlot s i = some (b, k) ∧ s.msg.read b = none) := by
  by_cases h1 : i < s.preSlots.toNat
  · have hd : dataSlot s i = none := by
      simp only [dataSlot]
      rw [if_neg (by omega)]
    simp only [frame, h1, if_true, timelineBit, hd]
    exact ⟨fun _ => by simp; omega, nofun⟩
  by_cases h2 : i - s.preSlots.toNat < 10 * s.msgLen.toNat
  · have hf : frame s i = frameSlot s.msg s.msgLen.toNat (i - s.preSlots.toNat) := by
      simp only [frame]
      rw [if_neg h1, if_neg (by omega), if_pos h2]
    rw [hf]
    unfold frameSlot
    simp only
    by_cases h3 : (i - s.preSlots.toNat) % 10 = 0
    · have hd : dataSlot s i = none := by
        simp only [dataSlot]
        rw [if_neg (by omega)]
      simp only [h3, if_true, timelineBit, hd]
      exact ⟨fun _ => by simp; omega, nofun⟩
    by_cases h4 : (i - s.preSlots.toNat) % 10 = 9
    · have hd : dataSlot s i = none := by
        simp only [dataSlot]
        rw [if_neg (by omega)]
      simp only [h4, if_true, timelineBit, hd]
      exact ⟨fun _ => by simp, nofun⟩
    have hd : dataSlot s i = some ((i - s.preSlots.toNat) / 10, (i - s.preSlots.toNat) % 10 - 1) := by
      simp only [dataSlot]
      rw [if_pos (by omega)]
    rw [if_neg h3, if_neg h4]
    unfold dataBit
    rw [if_neg (by omega)]
    constructor
    · intro hr
      obtain ⟨v, hv⟩ := Option.isSome_iff_exists.mp (hr _ _ hd)
      simp only [timelineBit, hd, hv, Option.getD]
    · intro f hf
      split at hf
      · cases hf
      · cases hf
        exact ⟨rfl, _, _, hd, ‹_›⟩
  · have hf : frame s i = .slot true false := by
      simp only [frame]
      rw [if_neg h1, if_neg (by omega), if_neg h2]
    have hd : dataSlot s i = none := by
      simp only [dataSlot]
      rw [if_neg (by omega)]
    rw [hf]
    simp only [timelineBit, hd]
    exact ⟨fun _ => by simp; omega, nofun⟩

/-! ## Everything a row can do -/

/-- The effects of the 36 rows, each with the row and the condition it belongs to. -/
inductive ExecEffect (i : Instr) (s t : State) : Prop
  /-- Only `rdata`: a read, a NOP, a STOP in DONE, a PULL in DONE. -/
  | responded (v : Word) (eq : t = s.respond v) (onPull : i = .pull → s.stream = .done ∧ v = eosResponse)
      (onStart : i ≠ .cmdStart) (onStop : i = .cmdStop → s.stream = .done)
  /-- One recorded error. -/
  | failed (c : Cause) (r : BitVec 2) (eq : t = (s.raiseError c r i.addr).respond 0) (reason : c ≠ .cfgErr → r = 0)
      (onPull : i = .pull → s.stream = .idle ∧ c = .pullErr) (onStart : i = .cmdStart → ¬ StartAccepted s)
      (onStop : i = .cmdStop → s.stream = .idle)
  | cleared (m : BitVec 6) (row : i = .wrErr m) (eq : t = { s with err := errClear s.err m, rdata := 0 })
  | wroteFs (v : Word) (row : i = .wrFs v) (free : s.stream ≠ .run) (eq : t = { s with fs := v, rdata := 0 })
  | wroteF0 (v : Word) (row : i = .wrF0 v) (free : s.stream ≠ .run) (eq : t = { s with f0 := v, rdata := 0 })
  | wroteF1 (v : Word) (row : i = .wrF1 v) (free : s.stream ≠ .run) (eq : t = { s with f1 := v, rdata := 0 })
  | wroteBaud (v : Word) (row : i = .wrBaud v) (free : s.stream ≠ .run) (eq : t = { s with baud := v, rdata := 0 })
  | wroteTstartMs (v : Word) (row : i = .wrTstartMs v) (free : s.stream ≠ .run)
      (eq : t = { s with tstartMs := v, rdata := 0 })
  | wroteTstopMs (v : Word) (row : i = .wrTstopMs v) (free : s.stream ≠ .run)
      (eq : t = { s with tstopMs := v, rdata := 0 })
  | wroteMsgLen (v : Word) (row : i = .wrMsgLen v) (free : s.stream ≠ .run)
      (eq : t = { s with msgLen := v, rdata := 0 })
  | wroteCell (n : BitVec 12) (byte : Byte) (row : i = .wrMsg n byte) (free : s.stream ≠ .run)
      (inside : n.toNat < s.build.msgCap) (eq : t = { s with msg := s.msg.write n.toNat byte, rdata := 0 })
  | started (row : i = .cmdStart) (accepted : StartAccepted s) (eq : t = s.startStream.respond 0)
  | stopped (row : i = .cmdStop) (running : s.stream = .run) (eq : t = { s with stream := .done, rdata := 0 })
  | ended (row : i = .pull) (running : s.stream = .run) (bit : Bool) (framed : frame s s.slot.toNat = .slot bit true)
      (eq : t = { s with stream := .done, rdata := eosResponse })
  | sampled (row : i = .pull) (running : s.stream = .run) (bit : Bool)
      (framed : frame s s.slot.toNat = .slot bit false) (w : Sample)
      (word : lutRead s.build (tableIndex (nextPhase s.build s.phase (s.stepFor bit))) = some w)
      (eq : t = { s with
        slot := s.slot + 1
        phase := BitVec.ofNat 32 (nextPhase s.build s.phase (s.stepFor bit))
        rdata := sampleResponse w })

/-- A locked write's effect: the lock's error, or what the row says. -/
theorem execEffect_of_lockedWrite {i : Instr} {s s' t : State} (h : lockedWrite i.addr s s' = .next t)
    (h1 : i ≠ .pull) (h2 : i ≠ .cmdStart) (h3 : i ≠ .cmdStop)
    (k : s.stream ≠ .run → t = s'.respond 0 → ExecEffect i s t) : ExecEffect i s t := by
  rcases lockedWrite_cases h with ⟨-, ht⟩ | ⟨hr, ht⟩
  · exact .failed .lockErr 0 ht (fun _ => rfl) (fun e => absurd e h1) (fun e => absurd e h2) (fun e => absurd e h3)
  · exact k hr ht

/-- Everything a row can do when it answers a next state. -/
theorem exec_effect {i : Instr} {s t : State} (h : exec i s = .next t) : ExecEffect i s t := by
  cases i
  case pull =>
    rcases execPull_cases h with ⟨h1, h2⟩ | ⟨h1, h2⟩ | ⟨h1, ⟨b, h2⟩, h3⟩ | ⟨h1, b, h2, h3⟩
    · exact .failed _ _ h2 (fun _ => rfl) (fun _ => ⟨h1, rfl⟩) nofun nofun
    · exact .responded _ h2 (fun _ => ⟨h1, rfl⟩) nofun nofun
    · exact .ended rfl h1 b h2 h3
    · obtain ⟨w, hw, ht⟩ := produceSample_cases h3
      exact .sampled rfl h1 b h2 w hw ht
  case cmdStart =>
    by_cases ha : StartAccepted s
    · rw [exec, execCmdStart_accepted ha] at h
      exact .started rfl ha (Host.Outcome.next.inj h).symm
    · obtain ⟨c, r, hc, he⟩ := execCmdStart_refused ha
      rw [exec, he] at h
      exact .failed c r (Host.Outcome.next.inj h).symm (by rcases hc with rfl | ⟨rfl, rfl⟩ <;> simp) nofun
        (fun _ => ha) nofun
  case cmdStop =>
    simp only [exec, execCmdStop] at h
    split at h
    · exact .failed _ _ (Host.Outcome.next.inj h).symm (fun _ => rfl) nofun nofun (fun _ => ‹_›)
    · exact .stopped rfl ‹_› (Host.Outcome.next.inj h).symm
    · exact .responded _ (Host.Outcome.next.inj h).symm nofun nofun (fun _ => ‹_›)
  case wrErr m => exact .cleared m rfl (Host.Outcome.next.inj h).symm
  case wrFs v => exact execEffect_of_lockedWrite h nofun nofun nofun (.wroteFs v rfl)
  case wrF0 v => exact execEffect_of_lockedWrite h nofun nofun nofun (.wroteF0 v rfl)
  case wrF1 v => exact execEffect_of_lockedWrite h nofun nofun nofun (.wroteF1 v rfl)
  case wrBaud v => exact execEffect_of_lockedWrite h nofun nofun nofun (.wroteBaud v rfl)
  case wrTstartMs v => exact execEffect_of_lockedWrite h nofun nofun nofun (.wroteTstartMs v rfl)
  case wrTstopMs v => exact execEffect_of_lockedWrite h nofun nofun nofun (.wroteTstopMs v rfl)
  case wrMsgLen v => exact execEffect_of_lockedWrite h nofun nofun nofun (.wroteMsgLen v rfl)
  case wrMsg n b =>
    simp only [exec, execWrMsg] at h
    split at h
    · exact execEffect_of_lockedWrite h nofun nofun nofun (fun hf ht => .wroteCell n b rfl hf ‹_› ht)
    · exact .failed _ _ (Host.Outcome.next.inj h).symm (fun _ => rfl) nofun nofun nofun
  case rdMsg n =>
    simp only [exec, execRdMsg] at h
    split at h
    · split at h
      · exact .responded _ (Host.Outcome.next.inj h).symm nofun nofun nofun
      · cases h
    · exact .failed _ _ (Host.Outcome.next.inj h).symm (fun _ => rfl) nofun nofun nofun
  case rdLut n =>
    simp only [exec, execRdLut] at h
    split at h
    · exact .responded _ (Host.Outcome.next.inj h).symm nofun nofun nofun
    · exact .failed _ _ (Host.Outcome.next.inj h).symm (fun _ => rfl) nofun nofun nofun
  all_goals exact .responded _ (Host.Outcome.next.inj h).symm nofun nofun nofun

/-! ## Whether a row fails does not depend on ERR -/

/-- The row raises the error `c`, whatever ERR holds. -/
def Raises (i : Instr) (s : State) (c : Cause) (r : BitVec 2) : Prop :=
  ∀ e, exec i { s with err := e } = failWith c r i.addr { s with err := e }

/-- The row leaves ERR and ERR_INFO alone, and whether it answers does not depend on ERR. -/
def RaisesNothing (i : Instr) (s : State) : Prop :=
  (∀ e t, exec i { s with err := e } = .next t → t.err = e ∧ t.errInfo = s.errInfo) ∧
  ∀ e e' t, exec i { s with err := e } = .next t → ∃ u, exec i { s with err := e' } = .next u

/-- What a row raises: one error with ECFG 0 but for CFG_ERR, or nothing. -/
def RaisesOneOrNothing (i : Instr) (s : State) : Prop :=
  (∃ c r, (c ≠ .cfgErr → r = 0) ∧ Raises i s c r) ∨ RaisesNothing i s

theorem raises_of_answer {i : Instr} {s : State} {v : State → Word} (h : ∀ s, exec i s = answer (v s) s) :
    RaisesOneOrNothing i s := by
  refine .inr ⟨fun e t ht => ?_, fun e e' t _ => ⟨_, h _⟩⟩
  rw [h] at ht
  cases ht
  exact ⟨rfl, rfl⟩

/-- A row that answers, whatever ERR holds, the same next state but for ERR. -/
theorem raises_of_next {i : Instr} {s : State} (f : State → State)
    (h : ∀ e, exec i { s with err := e } = .next (f { s with err := e }))
    (hf : ∀ s, (f s).err = s.err ∧ (f s).errInfo = s.errInfo) : RaisesOneOrNothing i s := by
  refine .inr ⟨fun e t ht => ?_, fun e e' t _ => ⟨_, h e'⟩⟩
  cases (h e).symm.trans ht
  exact hf _

/-- A row that never answers raises nothing. -/
theorem raises_of_stop {i : Instr} {s : State} (h : ∀ e t, exec i { s with err := e } ≠ .next t) :
    RaisesOneOrNothing i s :=
  .inr ⟨fun e t ht => absurd ht (h e t), fun e _ t ht => absurd ht (h e t)⟩

theorem raises_of_failWith {i : Instr} {s : State} (c : Cause) (r : BitVec 2) (hr : c ≠ .cfgErr → r = 0)
    (h : ∀ e, exec i { s with err := e } = failWith c r i.addr { s with err := e }) : RaisesOneOrNothing i s :=
  .inl ⟨c, r, hr, h⟩

theorem raises_of_lockedWrite {i : Instr} {s : State} {f : State → State}
    (h : ∀ e, exec i { s with err := e } = lockedWrite i.addr { s with err := e } (f { s with err := e }))
    (hf : ∀ s : State, (f s).err = s.err ∧ (f s).errInfo = s.errInfo) : RaisesOneOrNothing i s := by
  by_cases hr : s.stream = .run
  · exact raises_of_failWith .lockErr 0 (fun _ => rfl) (fun e => (h e).trans (lockedWrite_run hr))
  · exact raises_of_next (fun s => (f s).respond 0) (fun e => (h e).trans (lockedWrite_free hr)) hf

theorem raises_pull (s : State) : RaisesOneOrNothing .pull s := by
  have hfr : ∀ e, frame { s with err := e } s.slot.toNat = frame s s.slot.toNat := fun _ => rfl
  cases hs : s.stream with
  | idle => exact raises_of_failWith .pullErr 0 (fun _ => rfl) (fun e => by simp only [exec, execPull, hs]; rfl)
  | done =>
    exact raises_of_next (fun s => s.respond eosResponse) (fun e => by simp only [exec, execPull, hs, answer])
      (fun _ => ⟨rfl, rfl⟩)
  | run =>
    have hx : ∀ e, exec .pull { s with err := e } = pullRunning { s with err := e } := fun e => by
      simp only [exec, execPull, hs]
    cases hf : frame s s.slot.toNat with
    | fault f =>
      refine raises_of_stop (fun e t ht => ?_)
      rw [hx, pullRunning, hfr, hf] at ht
      cases ht
    | slot b d =>
      cases d with
      | true =>
        refine raises_of_next (fun s => { s with stream := .done, rdata := eosResponse }) (fun e => ?_)
          (fun _ => ⟨rfl, rfl⟩)
        rw [hx, pullRunning, hfr, hf]
        rfl
      | false =>
        have hp : ∀ e, exec .pull { s with err := e } = produceSample b { s with err := e } := fun e => by
          rw [hx, pullRunning, hfr, hf]
        cases hl : lutRead s.build (tableIndex (nextPhase s.build s.phase (s.stepFor b))) with
        | none =>
          have hl' : ∀ e, lutRead s.build (tableIndex (nextPhase s.build s.phase
              (State.stepFor { s with err := e } b))) = none := fun _ => hl
          refine raises_of_stop (fun e t ht => ?_)
          simp only [hp, produceSample, hl'] at ht
          cases ht
        | some w =>
          have hl' : ∀ e, lutRead s.build (tableIndex (nextPhase s.build s.phase
              (State.stepFor { s with err := e } b))) = some w := fun _ => hl
          exact raises_of_next
            (fun s => { s with
              slot := s.slot + 1
              phase := BitVec.ofNat 32 (nextPhase s.build s.phase (s.stepFor b))
              rdata := sampleResponse w })
            (fun e => by simp only [hp, produceSample, hl', answer]; rfl) (fun _ => ⟨rfl, rfl⟩)

theorem raises_cmdStart (s : State) : RaisesOneOrNothing .cmdStart s := by
  by_cases ha : StartAccepted s
  · exact raises_of_next (fun s => s.startStream.respond 0) (fun e => execCmdStart_accepted (s := { s with err := e }) ha)
      (fun _ => ⟨rfl, rfl⟩)
  by_cases h1 : s.stream = .run
  · exact raises_of_failWith .cmdErr 0 (fun _ => rfl)
      (fun e => by simp only [exec, execCmdStart, h1, if_true]; rfl)
  by_cases h2 : s.fs = 0
  · exact raises_of_failWith .cfgErr 1 nofun
      (fun e => by simp only [exec, execCmdStart, h1, h2, if_true, if_false]; rfl)
  by_cases h3 : s.msgLen.toNat > s.build.msgCap
  · exact raises_of_failWith .cfgErr 2 nofun
      (fun e => by simp only [exec, execCmdStart, h1, h2, h3, if_true, if_false]; rfl)
  by_cases h4 : timelineLength (slotCount s.tstartMs s.baud) s.msgLen.toNat (slotCount s.tstopMs s.baud) > 2 ^ 32 - 1
  · exact raises_of_failWith .cfgErr 3 nofun
      (fun e => by simp only [exec, execCmdStart, h1, h2, h3, h4, if_true, if_false]; rfl)
  · rw [timelineLength_eq_configuredEnd] at h4
    exact absurd ⟨h1, h2, by omega, by omega⟩ ha

/-- Every row but WR_ERR raises one error whatever ERR holds, or none and leaves ERR and ERR_INFO alone. -/
theorem exec_raises {i : Instr} (s : State) (hi : ∀ m, i ≠ .wrErr m) : RaisesOneOrNothing i s := by
  cases i
  case pull => exact raises_pull s
  case cmdStart => exact raises_cmdStart s
  case cmdStop =>
    cases hs : s.stream with
    | idle => exact raises_of_failWith .cmdErr 0 (fun _ => rfl) (fun e => by simp only [exec, execCmdStop, hs]; rfl)
    | run =>
      exact raises_of_next (fun s => { s with stream := .done, rdata := 0 })
        (fun e => by simp only [exec, execCmdStop, hs, written]; rfl) (fun _ => ⟨rfl, rfl⟩)
    | done =>
      exact raises_of_next (fun s => s.respond 0) (fun e => by simp only [exec, execCmdStop, hs, written])
        (fun _ => ⟨rfl, rfl⟩)
  case wrErr m => exact absurd rfl (hi m)
  case wrFs v => exact raises_of_lockedWrite (f := fun s => { s with fs := v }) (fun _ => rfl) (fun _ => ⟨rfl, rfl⟩)
  case wrF0 v => exact raises_of_lockedWrite (f := fun s => { s with f0 := v }) (fun _ => rfl) (fun _ => ⟨rfl, rfl⟩)
  case wrF1 v => exact raises_of_lockedWrite (f := fun s => { s with f1 := v }) (fun _ => rfl) (fun _ => ⟨rfl, rfl⟩)
  case wrBaud v => exact raises_of_lockedWrite (f := fun s => { s with baud := v }) (fun _ => rfl) (fun _ => ⟨rfl, rfl⟩)
  case wrTstartMs v =>
    exact raises_of_lockedWrite (f := fun s => { s with tstartMs := v }) (fun _ => rfl) (fun _ => ⟨rfl, rfl⟩)
  case wrTstopMs v =>
    exact raises_of_lockedWrite (f := fun s => { s with tstopMs := v }) (fun _ => rfl) (fun _ => ⟨rfl, rfl⟩)
  case wrMsgLen v =>
    exact raises_of_lockedWrite (f := fun s => { s with msgLen := v }) (fun _ => rfl) (fun _ => ⟨rfl, rfl⟩)
  case wrMsg n b =>
    by_cases hn : n.toNat < s.build.msgCap
    · exact raises_of_lockedWrite (f := fun s => { s with msg := s.msg.write n.toNat b })
        (fun e => by simp only [exec, execWrMsg, hn, if_true]; rfl) (fun _ => ⟨rfl, rfl⟩)
    · exact raises_of_failWith .addrErr 0 (fun _ => rfl)
        (fun e => by simp only [exec, execWrMsg, hn, if_false]; rfl)
  case rdMsg n =>
    by_cases hn : n.toNat < s.build.msgCap
    · cases hm : s.msg.read n.toNat with
      | none =>
        refine raises_of_stop (fun e t ht => ?_)
        simp only [exec, execRdMsg, hn, hm, if_true] at ht
        cases ht
      | some v =>
        exact raises_of_next (fun s => s.respond (byteWord v))
          (fun e => by simp only [exec, execRdMsg, hn, hm, if_true, answer]) (fun _ => ⟨rfl, rfl⟩)
    · exact raises_of_failWith .addrErr 0 (fun _ => rfl)
        (fun e => by simp only [exec, execRdMsg, hn, if_false]; rfl)
  case rdLut n =>
    cases hm : lutRead s.build n.toNat with
    | none =>
      exact raises_of_failWith .addrErr 0 (fun _ => rfl) (fun e => by simp only [exec, execRdLut, hm]; rfl)
    | some w =>
      exact raises_of_next (fun s => s.respond (tableWord w)) (fun e => by simp only [exec, execRdLut, hm, answer])
        (fun _ => ⟨rfl, rfl⟩)
  case rdStatus => exact raises_of_answer (v := fun s => statusWord s.err s.stream) (fun _ => rfl)
  case rdErr => exact raises_of_answer (v := fun s => errReadWord s.err) (fun _ => rfl)
  case cmdNop => exact raises_of_answer (v := fun _ => 0) (fun _ => rfl)
  all_goals exact raises_of_answer (fun _ => rfl)

end Sys2Proof.Machine
end

