-- ==== Sys2Proof/Laws/PerInstr.lean ====
section
/-! SUPPORT. Sys2Proof/Laws/PerInstr.lean: the families of statements about every instruction. -/

namespace Sys2Proof

/-- The word of an instruction carries its `WE`, `ADDR` and `WDATA` in the fields of 30_encoding.md R81, at an aligned address. -/
def Laws.EncodeFields.Statement (i : Instr) : Prop :=
  txnWe (encode i) = i.isWrite ∧ txnAddr (encode i) = i.addr ∧ txnData (encode i) = i.data ∧
    i.addr.extractLsb' 0 2 = 0

/-- The family's shared argument: only the alignment is the instruction's own. -/
theorem Laws.encodeFields_of_aligned (i : Instr) (h : i.addr.extractLsb' 0 2 = 0) :
    Laws.EncodeFields.Statement i :=
  ⟨txnWe_mkTxn .., txnAddr_mkTxn .., txnData_mkTxn .., h⟩

theorem Laws.EncodeFields.rdId : Laws.EncodeFields.Statement .rdId :=
  Laws.encodeFields_of_aligned _ (Reg.addr_aligned .id)
theorem Laws.EncodeFields.rdStatus : Laws.EncodeFields.Statement .rdStatus :=
  Laws.encodeFields_of_aligned _ (Reg.addr_aligned .status)
theorem Laws.EncodeFields.rdErr : Laws.EncodeFields.Statement .rdErr :=
  Laws.encodeFields_of_aligned _ (Reg.addr_aligned .err)
theorem Laws.EncodeFields.wrErr (mask : BitVec 6) : Laws.EncodeFields.Statement (.wrErr mask) :=
  Laws.encodeFields_of_aligned _ (Reg.addr_aligned .err)
theorem Laws.EncodeFields.rdErrInfo : Laws.EncodeFields.Statement .rdErrInfo :=
  Laws.encodeFields_of_aligned _ (Reg.addr_aligned .errInfo)
theorem Laws.EncodeFields.rdCmd : Laws.EncodeFields.Statement .rdCmd :=
  Laws.encodeFields_of_aligned _ (Reg.addr_aligned .cmd)
theorem Laws.EncodeFields.cmdNop : Laws.EncodeFields.Statement .cmdNop :=
  Laws.encodeFields_of_aligned _ (Reg.addr_aligned .cmd)
theorem Laws.EncodeFields.cmdStart : Laws.EncodeFields.Statement .cmdStart :=
  Laws.encodeFields_of_aligned _ (Reg.addr_aligned .cmd)
theorem Laws.EncodeFields.cmdStop : Laws.EncodeFields.Statement .cmdStop :=
  Laws.encodeFields_of_aligned _ (Reg.addr_aligned .cmd)
theorem Laws.EncodeFields.rdFs : Laws.EncodeFields.Statement .rdFs :=
  Laws.encodeFields_of_aligned _ (Reg.addr_aligned .fs)
theorem Laws.EncodeFields.wrFs (value : Word) : Laws.EncodeFields.Statement (.wrFs value) :=
  Laws.encodeFields_of_aligned _ (Reg.addr_aligned .fs)
theorem Laws.EncodeFields.rdF0 : Laws.EncodeFields.Statement .rdF0 :=
  Laws.encodeFields_of_aligned _ (Reg.addr_aligned .f0)
theorem Laws.EncodeFields.wrF0 (value : Word) : Laws.EncodeFields.Statement (.wrF0 value) :=
  Laws.encodeFields_of_aligned _ (Reg.addr_aligned .f0)
theorem Laws.EncodeFields.rdF1 : Laws.EncodeFields.Statement .rdF1 :=
  Laws.encodeFields_of_aligned _ (Reg.addr_aligned .f1)
theorem Laws.EncodeFields.wrF1 (value : Word) : Laws.EncodeFields.Statement (.wrF1 value) :=
  Laws.encodeFields_of_aligned _ (Reg.addr_aligned .f1)
theorem Laws.EncodeFields.rdBaud : Laws.EncodeFields.Statement .rdBaud :=
  Laws.encodeFields_of_aligned _ (Reg.addr_aligned .baud)
theorem Laws.EncodeFields.wrBaud (value : Word) : Laws.EncodeFields.Statement (.wrBaud value) :=
  Laws.encodeFields_of_aligned _ (Reg.addr_aligned .baud)
theorem Laws.EncodeFields.rdTstartMs : Laws.EncodeFields.Statement .rdTstartMs :=
  Laws.encodeFields_of_aligned _ (Reg.addr_aligned .tstartMs)
theorem Laws.EncodeFields.wrTstartMs (value : Word) : Laws.EncodeFields.Statement (.wrTstartMs value) :=
  Laws.encodeFields_of_aligned _ (Reg.addr_aligned .tstartMs)
theorem Laws.EncodeFields.rdTstopMs : Laws.EncodeFields.Statement .rdTstopMs :=
  Laws.encodeFields_of_aligned _ (Reg.addr_aligned .tstopMs)
theorem Laws.EncodeFields.wrTstopMs (value : Word) : Laws.EncodeFields.Statement (.wrTstopMs value) :=
  Laws.encodeFields_of_aligned _ (Reg.addr_aligned .tstopMs)
theorem Laws.EncodeFields.rdMsgLen : Laws.EncodeFields.Statement .rdMsgLen :=
  Laws.encodeFields_of_aligned _ (Reg.addr_aligned .msgLen)
theorem Laws.EncodeFields.wrMsgLen (value : Word) : Laws.EncodeFields.Statement (.wrMsgLen value) :=
  Laws.encodeFields_of_aligned _ (Reg.addr_aligned .msgLen)
theorem Laws.EncodeFields.rdLutLen : Laws.EncodeFields.Statement .rdLutLen :=
  Laws.encodeFields_of_aligned _ (Reg.addr_aligned .lutLen)
theorem Laws.EncodeFields.rdMsgCap : Laws.EncodeFields.Statement .rdMsgCap :=
  Laws.encodeFields_of_aligned _ (Reg.addr_aligned .msgCap)
theorem Laws.EncodeFields.rdPreSlots : Laws.EncodeFields.Statement .rdPreSlots :=
  Laws.encodeFields_of_aligned _ (Reg.addr_aligned .preSlots)
theorem Laws.EncodeFields.rdPostSlots : Laws.EncodeFields.Statement .rdPostSlots :=
  Laws.encodeFields_of_aligned _ (Reg.addr_aligned .postSlots)
theorem Laws.EncodeFields.rdEndSlot : Laws.EncodeFields.Statement .rdEndSlot :=
  Laws.encodeFields_of_aligned _ (Reg.addr_aligned .endSlot)
theorem Laws.EncodeFields.rdStep0 : Laws.EncodeFields.Statement .rdStep0 :=
  Laws.encodeFields_of_aligned _ (Reg.addr_aligned .step0)
theorem Laws.EncodeFields.rdStep1 : Laws.EncodeFields.Statement .rdStep1 :=
  Laws.encodeFields_of_aligned _ (Reg.addr_aligned .step1)
theorem Laws.EncodeFields.rdSlot : Laws.EncodeFields.Statement .rdSlot :=
  Laws.encodeFields_of_aligned _ (Reg.addr_aligned .slot)
theorem Laws.EncodeFields.rdPhase : Laws.EncodeFields.Statement .rdPhase :=
  Laws.encodeFields_of_aligned _ (Reg.addr_aligned .phase)
theorem Laws.EncodeFields.pull : Laws.EncodeFields.Statement .pull :=
  Laws.encodeFields_of_aligned _ (Reg.addr_aligned .sample)
theorem Laws.EncodeFields.rdMsg (n : BitVec 12) : Laws.EncodeFields.Statement (.rdMsg n) :=
  Laws.encodeFields_of_aligned _ (msgAddr_aligned n)
theorem Laws.EncodeFields.wrMsg (n : BitVec 12) (byte : Byte) : Laws.EncodeFields.Statement (.wrMsg n byte) :=
  Laws.encodeFields_of_aligned _ (msgAddr_aligned n)
theorem Laws.EncodeFields.rdLut (n : BitVec 13) : Laws.EncodeFields.Statement (.rdLut n) :=
  Laws.encodeFields_of_aligned _ (lutAddr_aligned n)

end Sys2Proof
end

