-- ==== Sys2Proof/WellFormed.lean ====
section
/-! DEFINITION. Sys2Proof/WellFormed.lean: the value condition of the opcode map that match and mask cannot express (30_encoding.md R88):
a window row applies only when its index is below the window's capacity. Every other operand is as wide as its field. -/

namespace Sys2Proof

/-- The instruction is a row of the opcode map on this build (30_encoding.md R88). -/
def WellFormed (b : Build) : Instr → Bool
  | .rdMsg n => decide (n.toNat < b.msgCap)
  | .wrMsg n _ => decide (n.toNat < b.msgCap)
  | .rdLut n => decide (n.toNat < b.T)
  | .rdId | .rdStatus | .rdErr | .wrErr _ | .rdErrInfo | .rdCmd | .cmdNop | .cmdStart | .cmdStop
  | .rdFs | .wrFs _ | .rdF0 | .wrF0 _ | .rdF1 | .wrF1 _ | .rdBaud | .wrBaud _ | .rdTstartMs | .wrTstartMs _
  | .rdTstopMs | .wrTstopMs _ | .rdMsgLen | .wrMsgLen _ | .rdLutLen | .rdMsgCap | .rdPreSlots | .rdPostSlots
  | .rdEndSlot | .rdStep0 | .rdStep1 | .rdSlot | .rdPhase | .pull => true

end Sys2Proof
end

