-- ==== Sys2Proof/Tests/Slice0.lean ====
section
/-! SUPPORT. Sys2Proof/Tests/Slice0.lean: the model's own tests. Every expected value is a vector of 95_test_vectors.md, named at its test (RA, AD, CM, PU,
ER: section 2; P: a program's trace line; L1: section 1), or is worked out by hand from the rule named. The witnesses at the end meet the
hypotheses of the obligations. -/

namespace Sys2Proof.Tests

open Sys2Proof.Machine

/-! ## Helpers -/

/-- One step with the transaction word `w` at the port. -/
def runWord (w : Nat) (s : State) : Result := step (s.withFetchWord 56 w)

/-- The next state, if there is one. -/
def stateOf : Result → Option State
  | .next t => some t
  | .fault _ => none
  | .refused _ => none

def faultOf : Result → Option Fault
  | .next _ => none
  | .fault f => some f
  | .refused _ => none

def refusalOf : Result → Option Refusal
  | .next _ => none
  | .fault _ => none
  | .refused r => some r

/-- The response of a step. -/
def rdataOf (r : Result) : Option Word := (stateOf r).map (fun t => t.rdata)

/-- ERR, ERR_INFO and the response after a step. -/
def errorOf (r : Result) : Option (Word × Word × Word) := (stateOf r).map (fun t => (t.err, t.errInfo, t.rdata))

/-- SLOT, PHASE and the response after a step. -/
def pullOf (r : Result) : Option (Word × Word × Word) := (stateOf r).map (fun t => (t.slot, t.phase, t.rdata))

/-- The stream of 95_test_vectors.md section 2.4 after its START: P = 2, L = 1, cell 0 = 0xA5, Q = 3, with the reset frequencies. -/
def running : State :=
  { State.reset with
    stream := .run, tstartMs := 40, tstopMs := 60, msgLen := 1, msg := [(0, 0xA5)]
    preSlots := 2, postSlots := 3, endSlot := 15, step0 := 60621, step1 := 54067 }

/-- The stream at slot `i`, the phase left at 0. -/
def runningAt (i : Word) : State := { running with slot := i }

/-- A stopped stream. -/
def finished : State := { running with stream := .done, slot := 7 }

/-- The reset state with START's five configuration inputs (CM vectors). -/
def configured (tstart baud tstop len fs : Word) : State :=
  { State.reset with tstartMs := tstart, baud := baud, tstopMs := tstop, msgLen := len, fs := fs }

/-- A build with one table word (CM14 to CM17). -/
def oneWordBuild : Build where
  lut := [0x0000#16]
  msgCap := 16

/-! ## WellFormed refuses what is ill-formed, and the build check every illegal build -/

theorem test_wf_rdMsg_past_cap : WellFormed Config.resetBuild (.rdMsg 16) = false := by decide
theorem test_wf_rdMsg_last : WellFormed Config.resetBuild (.rdMsg 15) = true := by decide
theorem test_wf_wrMsg_past_cap : WellFormed Config.resetBuild (.wrMsg 16 0xA5) = false := by decide
theorem test_wf_rdLut_past_T : WellFormed Config.resetBuild (.rdLut 4) = false := by decide
theorem test_wf_rdLut_last : WellFormed Config.resetBuild (.rdLut 3) = true := by decide

theorem test_build_empty_table : buildRefusal { lut := [], msgCap := 16 } = some .lutIllegal := by decide
theorem test_build_most_negative_word : buildRefusal { lut := [0x8000#16], msgCap := 16 } = some .lutIllegal := by decide
theorem test_build_no_cells : buildRefusal { lut := [0x8001#16], msgCap := 0 } = some .capIllegal := by decide
theorem test_build_too_many_cells : buildRefusal { lut := [0x8001#16], msgCap := 4097 } = some .capIllegal := by decide
theorem test_build_largest_cells : buildRefusal { lut := [0x8001#16], msgCap := 4096 } = none := by decide

/-! ## Decoding: every constructor, from a word of 95_test_vectors.md or written out from 30_encoding.md R88 -/

theorem test_decode_rdId : decodeTableWord 56 0x0000000000000 = some .rdId := by decide
theorem test_decode_rdStatus : decodeTableWord 56 0x0000400000000 = some .rdStatus := by decide
theorem test_decode_rdErr : decodeTableWord 56 0x0000800000000 = some .rdErr := by decide
theorem test_decode_wrErr : decodeTableWord 56 0x10008FFFFFFFF = some (.wrErr 0x3F) := by decide
theorem test_decode_rdErrInfo : decodeTableWord 56 0x0000C00000000 = some .rdErrInfo := by decide
theorem test_decode_rdCmd : decodeTableWord 56 0x0001000000000 = some .rdCmd := by decide
theorem test_decode_cmdNop : decodeTableWord 56 0x1001000000000 = some .cmdNop := by decide
theorem test_decode_cmdStart : decodeTableWord 56 0x1001000000001 = some .cmdStart := by decide
theorem test_decode_cmdStop : decodeTableWord 56 0x1001000000002 = some .cmdStop := by decide
theorem test_decode_rdFs : decodeTableWord 56 0x0002000000000 = some .rdFs := by decide
theorem test_decode_wrFs : decodeTableWord 56 0x1002000001F40 = some (.wrFs 8000) := by decide
theorem test_decode_rdF0 : decodeTableWord 56 0x0002400000000 = some .rdF0 := by decide
theorem test_decode_wrF0 : decodeTableWord 56 0x10024000003E8 = some (.wrF0 1000) := by decide
theorem test_decode_rdF1 : decodeTableWord 56 0x0002800000000 = some .rdF1 := by decide
theorem test_decode_wrF1 : decodeTableWord 56 0x1002800000672 = some (.wrF1 1650) := by decide
theorem test_decode_rdBaud : decodeTableWord 56 0x0002C00000000 = some .rdBaud := by decide
theorem test_decode_wrBaud : decodeTableWord 56 0x1002C00000032 = some (.wrBaud 50) := by decide
theorem test_decode_rdTstartMs : decodeTableWord 56 0x0003000000000 = some .rdTstartMs := by decide
theorem test_decode_wrTstartMs : decodeTableWord 56 0x1003000000028 = some (.wrTstartMs 40) := by decide
theorem test_decode_rdTstopMs : decodeTableWord 56 0x0003400000000 = some .rdTstopMs := by decide
theorem test_decode_wrTstopMs : decodeTableWord 56 0x100340000003C = some (.wrTstopMs 60) := by decide
theorem test_decode_rdMsgLen : decodeTableWord 56 0x0003800000000 = some .rdMsgLen := by decide
theorem test_decode_wrMsgLen : decodeTableWord 56 0x1003800000011 = some (.wrMsgLen 17) := by decide
theorem test_decode_rdLutLen : decodeTableWord 56 0x0004000000000 = some .rdLutLen := by decide
theorem test_decode_rdMsgCap : decodeTableWord 56 0x0004400000000 = some .rdMsgCap := by decide
theorem test_decode_rdPreSlots : decodeTableWord 56 0x0005000000000 = some .rdPreSlots := by decide
theorem test_decode_rdPostSlots : decodeTableWord 56 0x0005400000000 = some .rdPostSlots := by decide
theorem test_decode_rdEndSlot : decodeTableWord 56 0x0005800000000 = some .rdEndSlot := by decide
theorem test_decode_rdStep0 : decodeTableWord 56 0x0005C00000000 = some .rdStep0 := by decide
theorem test_decode_rdStep1 : decodeTableWord 56 0x0006000000000 = some .rdStep1 := by decide
theorem test_decode_rdSlot : decodeTableWord 56 0x0006400000000 = some .rdSlot := by decide
theorem test_decode_rdPhase : decodeTableWord 56 0x0006800000000 = some .rdPhase := by decide
theorem test_decode_pull : decodeTableWord 56 0x0007000000000 = some .pull := by decide
/-- AD11: the highest cell index. -/
theorem test_decode_rdMsg : decodeTableWord 56 0x07FFC00000000 = some (.rdMsg 4095) := by decide
/-- RA16: WDATA[31:8] is ignored. -/
theorem test_decode_wrMsg : decodeTableWord 56 0x1400C000001A5 = some (.wrMsg 3 0xA5) := by decide
/-- AD10: the highest table index. -/
theorem test_decode_rdLut : decodeTableWord 56 0x0FFFC00000000 = some (.rdLut 8191) := by decide

/-- A bit above X[48] makes no transaction (log entry 14). -/
theorem test_decode_bit49 : decodeTableWord 56 0x2000000000000 = none := by decide
/-- CM27. -/
theorem test_decode_opc3 : decode 0x1001000000003 = .illegal .reservedCommand := by decide
/-- CM29: a reserved bit with OPC 0 is no NOP. -/
theorem test_decode_rsv : decode 0x1001000000010 = .illegal .reservedCommand := by decide
/-- AD7: misaligned beats read-only. -/
theorem test_decode_misaligned_table_write : decode 0x1800200000000 = .illegal .misaligned := by decide

/-! ## Reads -/

/-- RA1. -/
theorem test_rdId : rdataOf (runWord 0x0000000000000 State.reset) = some 0x46534B4D := by decide
/-- RA24: RUN with ERR = 0x04. -/
theorem test_rdStatus_run : rdataOf (runWord 0x0000400000000 { running with err := 0x04 }) = some 0x00000005 := by decide
/-- RA25: DONE with ERR = 0x0C. -/
theorem test_rdStatus_done : rdataOf (runWord 0x0000400000000 { finished with err := 0x0C }) = some 0x00000006 := by decide
/-- P2 line 25. -/
theorem test_rdErr : rdataOf (runWord 0x0000800000000 { finished with err := 0x0C }) = some 0x0000000C := by decide
/-- P2 line 26. -/
theorem test_rdErrInfo :
    rdataOf (runWord 0x0000C00000000 { finished with errInfo := 0x80020024 }) = some 0x80020024 := by decide
/-- RA13. -/
theorem test_rdCmd : errorOf (runWord 0x0001000000000 State.reset) = some (0, 0, 0) := by decide
/-- RA3 to RA9. -/
theorem test_rdFs : rdataOf (runWord 0x0002000000000 State.reset) = some 0x00001F40 := by decide
theorem test_rdF0 : rdataOf (runWord 0x0002400000000 State.reset) = some 0x0000073A := by decide
theorem test_rdF1 : rdataOf (runWord 0x0002800000000 State.reset) = some 0x00000672 := by decide
theorem test_rdBaud : rdataOf (runWord 0x0002C00000000 State.reset) = some 0x00000032 := by decide
theorem test_rdTstartMs : rdataOf (runWord 0x0003000000000 State.reset) = some 0x000003E8 := by decide
theorem test_rdTstopMs : rdataOf (runWord 0x0003400000000 State.reset) = some 0x000003E8 := by decide
theorem test_rdMsgLen : rdataOf (runWord 0x0003800000000 State.reset) = some 0x00000000 := by decide
/-- RA10, RA11. -/
theorem test_rdLutLen : rdataOf (runWord 0x0004000000000 State.reset) = some 0x00000004 := by decide
theorem test_rdMsgCap : rdataOf (runWord 0x0004400000000 State.reset) = some 0x00000010 := by decide
/-- P3 lines 10 to 12. -/
theorem test_rdPreSlots : rdataOf (runWord 0x0005000000000 running) = some 0x00000002 := by decide
theorem test_rdPostSlots : rdataOf (runWord 0x0005400000000 running) = some 0x00000003 := by decide
theorem test_rdEndSlot : rdataOf (runWord 0x0005800000000 running) = some 0x0000000F := by decide
/-- P1 lines 8, 9. -/
theorem test_rdStep0 : rdataOf (runWord 0x0005C00000000 running) = some 0x0000ECCD := by decide
theorem test_rdStep1 : rdataOf (runWord 0x0006000000000 running) = some 0x0000D333 := by decide
/-- P2 lines 22, 23: SLOT = 3, PHASE = 162201. -/
theorem test_rdSlot : rdataOf (runWord 0x0006400000000 { running with slot := 3 }) = some 0x00000003 := by decide
theorem test_rdPhase : rdataOf (runWord 0x0006800000000 { running with phase := 162201 }) = some 0x00027999 := by decide

/-! ## Writes -/

/-- RA14: every value is legal. -/
theorem test_wrFs : (stateOf (runWord 0x10020FFFFFFFF State.reset)).map (fun t => t.fs) = some 0xFFFFFFFF := by decide
/-- P3 lines 4 to 8 (F0 to the value of P2 line 29, so that it differs from reset). -/
theorem test_wrF0 : (stateOf (runWord 0x10024000003E8 State.reset)).map (fun t => t.f0) = some 1000 := by decide
/-- RA18: LOCK_ERR in RUN, F0 unchanged. -/
theorem test_wrF0_locked : stateOf (runWord 0x10024000003E8 running) =
    some { running with err := 0x04, errInfo := 0x80020024 } := by decide
theorem test_wrF1 : (stateOf (runWord 0x1002800000001 State.reset)).map (fun t => t.f1) = some 1 := by decide
theorem test_wrBaud : (stateOf (runWord 0x1002C00000001 State.reset)).map (fun t => t.baud) = some 1 := by decide
theorem test_wrTstartMs : (stateOf (runWord 0x1003000000028 State.reset)).map (fun t => t.tstartMs) = some 40 := by decide
theorem test_wrTstopMs : (stateOf (runWord 0x100340000003C State.reset)).map (fun t => t.tstopMs) = some 60 := by decide
/-- RA15: a length past MSG_CAP is stored. -/
theorem test_wrMsgLen : stateOf (runWord 0x1003800000011 State.reset) = some { State.reset with msgLen := 17 } := by decide
/-- RA22, RA23: write 1 to clear, ERR_INFO kept. -/
theorem test_wrErr_one : errorOf (runWord 0x1000800000001 { State.reset with err := 3, errInfo := 0x80000014 }) =
    some (2, 0x80000014, 0) := by decide
theorem test_wrErr_all : errorOf (runWord 0x10008FFFFFFFF { State.reset with err := 2, errInfo := 0x80000014 }) =
    some (0, 0x80000014, 0) := by decide
/-- RA16, and the cells already written stay. -/
theorem test_wrMsg : (stateOf (runWord 0x1400C000001A5 { State.reset with msg := [(1, 7), (5, 9)] })).map (fun t => t.msg) =
    some [(1, 7), (3, 0xA5), (5, 9)] := by decide
/-- RA19: LOCK_ERR in RUN. -/
theorem test_wrMsg_locked : stateOf (runWord 0x1400000000005 running) =
    some { running with err := 0x04, errInfo := 0x80024000 } := by decide
/-- RA16, RA17. -/
theorem test_rdMsg : rdataOf (runWord 0x0400C00000000 { State.reset with msg := [(3, 0xA5)] }) = some 0xA5 := by decide
theorem test_rdMsg_unwritten : faultOf (runWord 0x0400000000000 State.reset) = some .unwrittenMsg := by decide
/-- AD8, AD5. -/
theorem test_rdLut : rdataOf (runWord 0x0800C00000000 State.reset) = some 0x00008001 := by decide
theorem test_rdLut_past : errorOf (runWord 0x0801000000000 State.reset) = some (1, 0x80008010, 0) := by decide

/-! ## Illegal transactions -/

/-- AD1. -/
theorem test_misaligned : errorOf (runWord 0x0000200000000 State.reset) = some (0x01, 0x80000002, 0) := by decide
/-- AD3. -/
theorem test_unmapped : errorOf (runWord 0x0003C00000000 State.reset) = some (0x01, 0x8000003C, 0) := by decide
/-- AD4. -/
theorem test_rdMsg_cap : errorOf (runWord 0x0404000000000 State.reset) = some (0x01, 0x80004040, 0) := by decide
/-- AD6, AD7. -/
theorem test_table_write : errorOf (runWord 0x1800000001234 State.reset) = some (0x02, 0x80018000, 0) := by decide
theorem test_table_write_misaligned : errorOf (runWord 0x1800200000000 State.reset) = some (0x01, 0x80008002, 0) := by decide
/-- AD13: ADDR beats LOCK. -/
theorem test_wrMsg_past_cap_in_run : errorOf (runWord 0x1404000000005 running) = some (0x01, 0x80004040, 0) := by decide
/-- RA20: RO beats LOCK. -/
theorem test_read_only_in_run : errorOf (runWord 0x1005000000005 running) = some (0x02, 0x80010050, 0) := by decide
/-- RA21: a write of SAMPLE is no pull. -/
theorem test_sample_write : stateOf (runWord 0x1007000000000 running) =
    some { running with err := 0x02, errInfo := 0x80010070 } := by decide
/-- CM21: the reserved bits, no START attempted. -/
theorem test_reserved_command_in_run : stateOf (runWord 0x1001000000011 running) =
    some { running with err := 0x08, errInfo := 0x80030010 } := by decide
/-- ER2: no recapture while a flag is set. -/
theorem test_no_recapture : errorOf (runWord 0x0001400000000 { State.reset with err := 2, errInfo := 0x80000014 }) =
    some (3, 0x80000014, 0) := by decide

/-! ## Commands -/

/-- CM26. -/
theorem test_cmdNop : stateOf (runWord 0x1001000000000 running) = some running := by decide
/-- P3 line 31 (CM22): from DONE, SLOT and PHASE back at 0. -/
theorem test_start_from_done : stateOf (runWord 0x1001000000001 { finished with phase := 162201 }) = some running := by decide
/-- CM9: END = 2^32 is refused. -/
theorem test_start_too_long : stateOf (runWord 0x1001000000001 (configured 0xFFFFFFFF 1000 1 0 8000)) =
    some { configured 0xFFFFFFFF 1000 1 0 8000 with err := 0x10, errInfo := 0x80340010 } := by decide
/-- CM23. -/
theorem test_stop_idle : errorOf (runWord 0x1001000000002 State.reset) = some (0x08, 0x80030010, 0) := by decide
/-- CM24. -/
theorem test_stop_run : stateOf (runWord 0x1001000000002 (runningAt 7)) = some finished := by decide
/-- CM3, CM4, CM6, CM7: floor. -/
theorem test_slotCount : [slotCount 999 50, slotCount 10 50, slotCount 1 999, slotCount 0xFFFFFFFF 1] =
    [49, 0, 0, 4294967] := by decide
/-- CM1, CM18, CM19: STEP1 and STEP0 of reset, a whole period, no tone. -/
theorem test_phaseStep : [phaseStep Config.resetBuild 1650 8000, phaseStep Config.resetBuild 1850 8000,
    phaseStep Config.resetBuild 8000 8000, phaseStep Config.resetBuild 0 8000] = [54067, 60621, 0, 0] := by decide
/-- CM14 to CM17: ties to even. -/
theorem test_phaseStep_ties : [1, 3, 5, 7].map (fun f => phaseStep oneWordBuild f 131072) = [0, 2, 2, 4] := by decide
/-- 00_scope.md R9 as worked in section 2.3. -/
theorem test_rne : [rne 0 5, rne 1 2, rne 3 2, rne 5 2, rne 7 2, rne 9 4, rne 11 4, rne 10 4, rne 14 4] =
    [0, 0, 2, 2, 4, 2, 3, 2, 4] := by decide

/-! ## The framer and the pull -/

/-- Section 2.4: every slot of the 0xA5 stream, and two past its end. -/
theorem test_frame_all : (List.range 17).map (fun i => frame running i) =
    [.slot true false, .slot true false, .slot false false, .slot true false, .slot false false, .slot true false] ++
    [.slot false false, .slot false false, .slot true false, .slot false false, .slot true false, .slot true false] ++
    [.slot true false, .slot true false, .slot true false, .slot false true, .slot false true] := by decide
/-- FR1: nothing to send. -/
theorem test_frame_empty : frame { running with preSlots := 0, postSlots := 0, endSlot := 0, msgLen := 0 } 0 =
    .slot false true := by decide
/-- RS2: the first data bit of an unwritten cell. -/
theorem test_frame_unwritten : frame { running with msg := [] } 3 = .fault .unwrittenMsg := by decide
/-- P3 line 15: the start bit with STEP0, the phase carried across. -/
theorem test_pull_start_bit : pullOf (runWord 0x0007000000000 { running with slot := 2, phase := 108134 }) =
    some (3, 168755, 0x00010000) := by decide
/-- P3 line 28. -/
theorem test_pull_end : stateOf (runWord 0x0007000000000 (runningAt 15)) =
    some { runningAt 15 with stream := .done, rdata := 0x00020000 } := by decide
/-- P3 line 17, PU10: the wrap. -/
theorem test_nextPhase_wrap : [nextPhase Config.resetBuild 229376 60621, nextPhase oneWordBuild 65535 65535] =
    [27853, 65534] := by decide
/-- P1 line 13: idx = 235930 is table word 3. -/
theorem test_tableIndex : lutRead Config.resetBuild (tableIndex 235930) = some 0x8001 := by decide
/-- PU8. -/
theorem test_sampleResponse_negative : sampleResponse 0x8001 = 0x00018001 := by decide

/-! ## Reset, and the port -/

/-- 70_reset_and_hazards.md R251, R252: the mark of every cell is cleared, and later events stay pending. -/
theorem test_reset_event : stateOf (step { running with port := [.reset, .txn 5] }) =
    some { State.reset with port := [.txn 5] } := by decide
theorem test_nothing_pending : stateOf (step running) = some running := by decide
theorem test_illegal_build_refused :
    refusalOf (runWord 0 { State.reset with build := { lut := [], msgCap := 16 } }) = some .lutIllegal := by decide

/-! ## The assembler -/

/-- P1 lines 1 to 3. -/
theorem test_asm_loadMsg : assemble Config.resetBuild (.loadMsg ['A']) =
    some [0x1400000000041, 0x1400400000000, 0x1003800000002] := by decide
/-- P3 lines 1, 2: the empty text is its terminator. -/
theorem test_asm_loadMsg_empty : assemble Config.resetBuild (.loadMsg []) =
    some [0x1400000000000, 0x1003800000001] := by decide
/-- P3 lines 3 to 8. -/
theorem test_asm_config : assemble Config.resetBuild (.config 8000 1850 1650 50 40 60) =
    some [0x1002000001F40, 0x100240000073A, 0x1002800000672, 0x1002C00000032, 0x1003000000028, 0x100340000003C] := by decide
theorem test_asm_clrErr : assemble Config.resetBuild .clrErr = some [0x100080000003F] := by decide
theorem test_asm_pullN : assemble Config.resetBuild (.pullN 3) =
    some [0x0007000000000, 0x0007000000000, 0x0007000000000] := by decide
/-- P4 lines 5, 6, 13. -/
theorem test_asm_windows : [assemble Config.resetBuild (.rdMsg 3), assemble Config.resetBuild (.rdLut 1),
    assemble Config.resetBuild (.wr .id 0)] =
    [some [0x0400C00000000], some [0x0800400000000], some [0x1000000000000]] := by decide
/-- 30_encoding.md R93: an index past the RAM and a byte past 255 are assembly errors (log entry 15). -/
theorem test_asm_errors : [assemble Config.resetBuild (.wrMsg 16 0), assemble Config.resetBuild (.wrMsg 3 0x1A5)] =
    [none, none] := by decide

/-! ## Witnesses: concrete states and operands that meet the hypotheses of the obligations, one at each clause's boundary -/

theorem runningInv : BlockInv running where
  build_legal := by decide
  msg_wf := by decide
  msg_below := by decide
  phase_lt := by decide
  step0_lt := by decide
  step1_lt := by decide
  timeline _ := ⟨by decide, 1, by decide, by decide⟩
  running _ := by decide
  idle := by decide
  err_reserved := by decide
  info_reserved := by decide
  info_cause := by decide
  info_valid := by decide

/-- Every cell written, and a PULL pending in a slot that reads one. -/
def allWritten : State :=
  { runningAt 3 with msg := (List.range 16).map (fun n => (n, 0xA5)), port := [.txn 0x0007000000000] }

theorem allWrittenInv : BlockInv allWritten where
  build_legal := by decide
  msg_wf := by decide
  msg_below := by decide
  phase_lt := by decide
  step0_lt := by decide
  step1_lt := by decide
  timeline _ := ⟨by decide, 1, by decide, by decide⟩
  running _ := by decide
  idle := by decide
  err_reserved := by decide
  info_reserved := by decide
  info_cause := by decide
  info_valid := by decide

theorem witness_ConfigurationWritesAreLocked : running.stream = .run ∧ State.reset.stream ≠ .run ∧ finished.stream ≠ .run := by
  decide

theorem witness_MessageReadRow :
    ((15#12).toNat < State.reset.build.msgCap ∧ Memory.read [(15, 0xA5)] (15#12).toNat = some 0xA5) ∧
    ((15#12).toNat < State.reset.build.msgCap ∧ State.reset.msg.read (15#12).toNat = none) ∧
    State.reset.build.msgCap ≤ (16#12).toNat := by
  decide

theorem witness_MessageWriteRow :
    ((15#12).toNat < running.build.msgCap ∧ running.stream = .run) ∧
    ((15#12).toNat < State.reset.build.msgCap ∧ State.reset.stream ≠ .run) ∧
    State.reset.build.msgCap ≤ (16#12).toNat := by
  decide

theorem witness_TableWindowRow :
    State.reset.build.lut[(3#13).toNat]? = some 0x8001#16 ∧ State.reset.build.lut.length ≤ (4#13).toNat ∧
    (3#13).toNat < State.reset.build.lut.length := by
  decide

theorem witness_ErrorClearRow : 31 < 32 ∧ (0x80000001#32).getLsbD 31 = true := by decide

/-- The lowest reserved bit, and the lowest reserved operation. -/
theorem witness_CommandWords :
    ((0x10#32).toNat / 16 ≠ 0 ∨ (0x10#32).toNat % 16 > 2) ∧ ((3#32).toNat / 16 ≠ 0 ∨ (3#32).toNat % 16 > 2) := by
  decide

theorem witness_StartRow :
    (running.build.legal = true ∧ running.stream = .run) ∧
    ((configured 1000 50 1000 17 0).stream ≠ .run ∧ (configured 1000 50 1000 17 0).fs = 0) ∧
    ((configured 1000 50 1000 17 8000).fs ≠ 0 ∧
      (configured 1000 50 1000 17 8000).msgLen.toNat > (configured 1000 50 1000 17 8000).build.msgCap) ∧
    ((configured 0xFFFFFFFF 1000 1 0 8000).msgLen.toNat ≤ (configured 0xFFFFFFFF 1000 1 0 8000).build.msgCap ∧
      configuredEnd (configured 0xFFFFFFFF 1000 1 0 8000) > 2 ^ 32 - 1) ∧
    (StartAccepted (configured 0xFFFFFFFF 1000 0 0 8000) ∧
      configuredEnd (configured 0xFFFFFFFF 1000 0 0 8000) = 2 ^ 32 - 1) := by
  decide

/-- A tie, rounded to the even side. -/
theorem witness_RoundingIsNearestTiesToEven : 0 < 2 ∧ 2 * (rne 5 2 * 2) + 2 = 2 * 5 := by decide

theorem witness_StopRow :
    State.reset.stream = .idle ∧ running.stream = .run ∧ finished.stream = .done ∧
    (∃ t, running.stream ≠ .idle ∧ exec .cmdStop running = .next t) :=
  ⟨rfl, rfl, rfl, _, by decide, rfl⟩

/-- Every row of the relation, at the last slot and at END for PULL. -/
theorem witness_StateTransitionRelation :
    (State.reset.preSlots.toNat ≤ State.reset.endSlot.toNat ∧ StartAccepted State.reset ∧
      ∃ t, exec .cmdStart State.reset = .next t) ∧
    (running.preSlots.toNat ≤ running.endSlot.toNat ∧ ¬ StartAccepted running ∧
      ∃ t, exec .cmdStart running = .next t) ∧
    (∃ t, State.reset.stream = .idle ∧ exec .cmdStop State.reset = .next t) ∧
    (∃ t, running.stream ≠ .idle ∧ exec .cmdStop running = .next t) ∧
    (∃ t, (runningAt 15).stream = .run ∧ (runningAt 15).endSlot.toNat ≤ (runningAt 15).slot.toNat ∧
      exec .pull (runningAt 15) = .next t) ∧
    (∃ t, (runningAt 14).stream = .run ∧ (runningAt 14).slot.toNat < (runningAt 14).endSlot.toNat ∧
      exec .pull (runningAt 14) = .next t) ∧
    (∃ t, State.reset.stream ≠ .run ∧ exec .pull State.reset = .next t) ∧
    (∃ t, exec .rdId State.reset = .next t) ∧
    (∃ t, decode 0x0000200000000 = .illegal .misaligned ∧ perform 0x0000200000000 running = .next t) ∧
    (∃ t, { running with port := [.reset] }.port = .reset :: [] ∧ step { running with port := [.reset] } = .next t) :=
  ⟨⟨by decide, by decide, _, rfl⟩, ⟨by decide, by decide, _, rfl⟩, ⟨_, rfl, rfl⟩, ⟨_, by decide, rfl⟩,
    ⟨_, rfl, by decide, rfl⟩, ⟨_, rfl, by decide, rfl⟩, ⟨_, by decide, rfl⟩, ⟨_, rfl⟩, ⟨_, by decide, rfl⟩, ⟨_, rfl, rfl⟩⟩

theorem witness_PullWithoutStream : State.reset.stream = .idle ∧ finished.stream = .done := by decide

theorem witness_PullRow :
    running.build.legal = true ∧
    (State.reset.build.legal = true ∧ State.reset.stream = .idle) ∧
    (finished.build.legal = true ∧ finished.stream = .done) ∧
    ((runningAt 15).stream = .run ∧ frame (runningAt 15) 15 = .slot false true) ∧
    ((runningAt 14).stream = .run ∧ frame (runningAt 14) 14 = .slot true false) ∧
    ({ runningAt 3 with msg := [] }.stream = .run ∧ frame { runningAt 3 with msg := [] } 3 = .fault .unwrittenMsg) := by
  decide

/-- Slot 10 is data bit 7, read from cell 0; slot 14 is the last mark. -/
theorem witness_PullProducesTheTimelineSample :
    ((runningAt 10).build.legal = true ∧ (runningAt 10).stream = .run ∧
      (runningAt 10).slot.toNat < (runningAt 10).endSlot.toNat ∧ dataSlot (runningAt 10) 10 = some (0, 7) ∧
      ((runningAt 10).msg.read 0).isSome = true) ∧
    ((runningAt 14).slot.toNat < (runningAt 14).endSlot.toNat ∧ dataSlot (runningAt 14) 14 = none) := by
  decide

theorem witness_PullProducesTheTimelineSample_readable : SlotReadable (runningAt 10) (runningAt 10).slot.toNat := by
  intro b k h
  have h0 : dataSlot (runningAt 10) (runningAt 10).slot.toNat = some (0, 7) := by decide
  cases h0.symm.trans h
  decide

theorem witness_FramerIsTheTimeline :
    running.endSlot.toNat = running.preSlots.toNat + 10 * running.msgLen.toNat + running.postSlots.toNat ∧
    1 < running.preSlots.toNat ∧
    (running.preSlots.toNat + 10 * running.msgLen.toNat ≤ 12 ∧ 14 < running.endSlot.toNat) ∧
    running.endSlot.toNat ≤ 15 ∧
    (0 < running.msgLen.toNat ∧ 2 = running.preSlots.toNat + 10 * 0 + 0 ∧ 3 = running.preSlots.toNat + 10 * 0 + 1 ∧
      10 = running.preSlots.toNat + 10 * 0 + 8 ∧ 11 = running.preSlots.toNat + 10 * 0 + 9) ∧
    running.msg.read 0 = some 0xA5 ∧ { running with msg := [] }.msg.read 0 = none := by
  decide

theorem witness_FrameCarriesItsByte :
    running.endSlot.toNat = running.preSlots.toNat + 10 * running.msgLen.toNat + running.postSlots.toNat ∧
    0 < running.msgLen.toNat ∧ running.msg.read 0 = some 0xA5 := by
  decide

theorem witness_OnlyAnUnwrittenCellFaults :
    exec (.rdMsg 15) State.reset = .fault .unwrittenMsg ∧
    exec .pull { runningAt 10 with msg := [] } = .fault .unwrittenMsg :=
  ⟨rfl, rfl⟩

theorem witness_LegalBuildIsNeverRefused : running.build.legal = true ∧ (State.resetOf oneWordBuild).build.legal = true := by
  decide

theorem witness_IllegalBuildIsRefused :
    let emptyTable : Build := { lut := [], msgCap := 4096 }
    let badWord : Build := { lut := [0x8001#16, 0x8000#16], msgCap := 4097 }
    let noCells : Build := { lut := [0x8001#16], msgCap := 0 }
    (emptyTable.lut.length = 0 ∧ ¬ (emptyTable.msgCap = 0 ∨ 4096 < emptyTable.msgCap)) ∧
    (0x8000#16 ∈ badWord.lut ∧ 4096 < badWord.msgCap) ∧
    (¬ (noCells.lut.length = 0 ∨ 8192 < noCells.lut.length ∨ 0x8000#16 ∈ noCells.lut) ∧ noCells.msgCap = 0) := by
  decide

theorem witness_StepRunsTheDecodedTransaction :
    allWritten.build.legal = true ∧ allWritten.port = .txn 0x0007000000000 :: [] ∧ decode 0x0007000000000 = .instr .pull ∧
    0x1FFFFFFFFFFFF < 2 ^ 49 := by
  decide

theorem witness_NothingPendingChangesNothing : running.build.legal = true ∧ running.port = [] := by decide

/-- One address for each clause: the misaligned highest, the first gap and the highest unmapped offset, cells 16 and 4095, table words 4 and 8191, table
words 0 and 3, the command words. -/
theorem witness_IllegalTransactions :
    (0xFFFF#16).toNat % 4 ≠ 0 ∧
    ((0x0014#16).toNat % 4 = 0 ∧ (0x0014#16).toNat < 0x4000 ∧ (0x3FFC#16).toNat % 4 = 0 ∧ (0x3FFC#16).toNat < 0x4000) ∧
    ((0x4040#16).toNat % 4 = 0 ∧ State.reset.build.msgCap ≤ ((0x4040#16).toNat - 0x4000) / 4 ∧
      (0x7FFC#16).toNat < 0x8000 ∧ State.reset.build.msgCap ≤ ((0x7FFC#16).toNat - 0x4000) / 4) ∧
    ((0x8010#16).toNat % 4 = 0 ∧ State.reset.build.lut.length ≤ ((0x8010#16).toNat - 0x8000) / 4 ∧
      (0xFFFC#16).toNat % 4 = 0 ∧ State.reset.build.lut.length ≤ ((0xFFFC#16).toNat - 0x8000) / 4) ∧
    ((0x8000#16).toNat % 4 = 0 ∧ ((0x8000#16).toNat - 0x8000) / 4 < State.reset.build.lut.length ∧
      ((0x800C#16).toNat - 0x8000) / 4 < State.reset.build.lut.length) ∧
    ((0x10#32).toNat / 16 ≠ 0 ∨ (0x10#32).toNat % 16 > 2) := by
  decide

theorem witness_IllegalTransactions_unmapped :
    (0x0014#16).toNat ∉ [0x00, 0x04, 0x08, 0x0C, 0x10, 0x20, 0x24, 0x28, 0x2C, 0x30, 0x34, 0x38,
      0x40, 0x44, 0x50, 0x54, 0x58, 0x5C, 0x60, 0x64, 0x68, 0x70] ∧
    (0x3FFC#16).toNat ∉ [0x00, 0x04, 0x08, 0x0C, 0x10, 0x20, 0x24, 0x28, 0x2C, 0x30, 0x34, 0x38,
      0x40, 0x44, 0x50, 0x54, 0x58, 0x5C, 0x60, 0x64, 0x68, 0x70] := by
  decide

theorem witness_ResetEvent :
    { running with port := [.reset] }.build.legal = true ∧ { running with port := [.reset] }.port = .reset :: [] := by
  decide

theorem witness_InvariantAtReset : Config.resetBuild.legal = true ∧ oneWordBuild.legal = true := by decide

/-- A PULL of a data slot that answers. -/
theorem witness_StepKeepsTheInvariant : BlockInv allWritten ∧ ∃ t, step allWritten = .next t :=
  ⟨allWrittenInv, _, rfl⟩

/-- WR_MSG 3, 0x1A5: the ignored bits may differ. -/
theorem witness_EncodeOfDecoded :
    decode 0x1400C000001A5 = .instr (.wrMsg 3 0xA5) ∧
    0xFFFFFFA5#32 &&& dataMask (.wrMsg 3 0xA5) = txnData 0x1400C000001A5 &&& dataMask (.wrMsg 3 0xA5) := by
  decide

theorem witness_DecoderIsTheOpcodeTable :
    ⟨35, 0x0800000000000, maskLut⟩ ∈ opcodeTable ∧ 0x0FFFC00000000#49 &&& maskLut = 0x0800000000000 := by
  decide

/-- Each register's own write, outside RUN. -/
theorem witness_OnlyItsOwnWriteChangesAConfigurationRegister :
    (∃ t, exec (.wrFs 1) State.reset = .next t ∧ t.fs ≠ State.reset.fs) ∧
    (∃ t, exec (.wrF0 1) State.reset = .next t ∧ t.f0 ≠ State.reset.f0) ∧
    (∃ t, exec (.wrF1 1) State.reset = .next t ∧ t.f1 ≠ State.reset.f1) ∧
    (∃ t, exec (.wrBaud 1) State.reset = .next t ∧ t.baud ≠ State.reset.baud) ∧
    (∃ t, exec (.wrTstartMs 1) State.reset = .next t ∧ t.tstartMs ≠ State.reset.tstartMs) ∧
    (∃ t, exec (.wrTstopMs 1) State.reset = .next t ∧ t.tstopMs ≠ State.reset.tstopMs) ∧
    (∃ t, exec (.wrMsgLen 1) State.reset = .next t ∧ t.msgLen ≠ State.reset.msgLen) :=
  ⟨⟨_, rfl, by decide⟩, ⟨_, rfl, by decide⟩, ⟨_, rfl, by decide⟩, ⟨_, rfl, by decide⟩, ⟨_, rfl, by decide⟩,
    ⟨_, rfl, by decide⟩, ⟨_, rfl, by decide⟩⟩

theorem witness_OnlyAnAcceptedStartChangesTheStreamConstants :
    (∃ t, exec .cmdStart running = .next t ∧ ¬ (Instr.cmdStart = .cmdStart ∧ StartAccepted running)) ∧
    (∃ t, decode 0x0000200000000 = .illegal .misaligned ∧ perform 0x0000200000000 running = .next t) :=
  ⟨⟨_, rfl, by decide⟩, ⟨_, by decide, rfl⟩⟩

theorem witness_OnlyStartAndPullMoveTheCounters :
    (∃ t, finished.build.legal = true ∧ exec .cmdStart finished = .next t ∧ t.slot ≠ finished.slot) ∧
    (∃ t, (runningAt 14).build.legal = true ∧ exec .pull (runningAt 14) = .next t ∧ t.phase ≠ (runningAt 14).phase) :=
  ⟨⟨_, by decide, rfl, by decide⟩, ⟨_, by decide, rfl, by decide⟩⟩

theorem witness_OnlyAMessageWriteChangesACell :
    ∃ t, exec (.wrMsg 15 0xA5) State.reset = .next t ∧ t.msg.read 15 ≠ State.reset.msg.read 15 :=
  ⟨_, rfl, by decide⟩

/-- A misaligned read with LOCK_ERR set keeps that flag; with none set it is captured. -/
theorem witness_FlagsAreStickyAndTheFirstErrorIsCaptured :
    (∃ t, perform 0x0000200000000 { State.reset with err := 0x04 } = .next t ∧
      (0x04#32).getLsbD 2 = true ∧ decode 0x0000200000000 = .illegal .misaligned) ∧
    (∃ t, perform 0x0000200000000 State.reset = .next t ∧ t.errInfo ≠ State.reset.errInfo ∧
      State.reset.err = 0 ∧ t.err ≠ 0) :=
  ⟨⟨_, rfl, by decide, by decide⟩, ⟨_, rfl, by decide, by decide, by decide⟩⟩

/-- A refused START with its flag already set; a PULL that raises nothing. -/
theorem witness_OneErrorAndNoOtherEffect :
    (∃ t, perform 0x1001000000001 { State.reset with fs := 0, err := 0x10, errInfo := 0x80140010 } = .next t ∧ t.err = 0x10) ∧
    (∃ t, perform 0x0007000000000 running = .next t ∧ t.slot = 1) :=
  ⟨⟨_, rfl, by decide⟩, ⟨_, rfl, by decide⟩⟩

theorem witness_RunningStreamIsLocked :
    allWritten.stream = .run ∧ (∀ rest, allWritten.port ≠ .reset :: rest) ∧ ∃ t, step allWritten = .next t :=
  ⟨rfl, nofun, _, rfl⟩

theorem witness_ReadsHaveNoSideEffect :
    (∃ t, (0x0004#16 : Addr) ≠ 0x0070 ∧ perform (mkTxn false 0x0004 0) running = .next t) ∧
    (∃ t, (0xFFFF#16 : Addr) ≠ 0x0070 ∧ perform (mkTxn false 0xFFFF 0) running = .next t) :=
  ⟨⟨_, by decide, rfl⟩, ⟨_, by decide, rfl⟩⟩

theorem witness_PullResponsesAreTheThreeForms :
    (∃ t, exec .pull (runningAt 14) = .next t ∧ t.rdata = 0x00010000) ∧
    (∃ t, exec .pull (runningAt 15) = .next t ∧ t.rdata = 0x00020000) ∧
    (∃ t, exec .pull State.reset = .next t ∧ t.rdata = 0) :=
  ⟨⟨_, rfl, by decide⟩, ⟨_, rfl, by decide⟩, ⟨_, rfl, by decide⟩⟩

/-- A negative word: the phase goes to 249108, which is in table word 3. -/
theorem witness_SamplesAreTableWordsInRange :
    ∃ t, { running with phase := 195041 }.build.legal = true ∧ exec .pull { running with phase := 195041 } = .next t ∧
      running.stream = .run ∧ t.stream = .run ∧ t.rdata = 0x00018001 :=
  ⟨_, by decide, rfl, rfl, rfl, by decide⟩

theorem witness_PhaseIsTheRunningSumOfSteps :
    BlockInv running ∧ running.stream = .run ∧ running.slot.toNat + 3 ≤ running.endSlot.toNat ∧
    ∃ t, pulls 3 running = .next t ∧ t.phase = 168755 :=
  ⟨runningInv, rfl, by decide, _, rfl, by decide⟩

theorem witness_StreamHasExactlyEndSlotSamples :
    BlockInv running ∧ running.stream = .run ∧ running.slot = 0 ∧
    (∀ b, b < running.msgLen.toNat → (running.msg.read b).isSome) :=
  ⟨runningInv, rfl, rfl, by decide⟩

/-- The second state differs in SLOT, PHASE, the error registers and the stream's state. -/
theorem witness_StreamsOfOneConfigurationAreEqual :
    SameConfiguration { State.reset with msgLen := 1, msg := [(0, 0xA5)] }
      { State.reset with
        msgLen := 1, msg := [(0, 0xA5)], stream := .done, slot := 7, phase := 9, endSlot := 15, err := 4, errInfo := 0x80020024 } ∧
    StartAccepted { State.reset with msgLen := 1, msg := [(0, 0xA5)] } ∧
    (∃ t, exec .cmdStart { State.reset with msgLen := 1, msg := [(0, 0xA5)] } = .next t) ∧
    (∃ t, finished.stream ≠ .run ∧ exec .cmdStart finished = .next t) :=
  ⟨⟨rfl, rfl, rfl, rfl, rfl, rfl, rfl, rfl, fun _ => rfl⟩, by decide, ⟨_, rfl⟩, ⟨_, by decide, rfl⟩⟩

theorem witness_ResponsesDependOnlyOnTheStream :
    SameStream running { running with fs := 0, f0 := 7, err := 4, errInfo := 0x80020024, rdata := 9, port := [.reset] } :=
  ⟨rfl, rfl, rfl, rfl, rfl, rfl, rfl, rfl, rfl, rfl, fun _ => rfl⟩

/-- A refused write in RUN. -/
theorem witness_OtherTransactionsLeaveTheStreamAlone :
    running.stream = .run ∧ decode 0x10024000003E8 ≠ .instr .pull ∧ decode 0x10024000003E8 ≠ .instr .cmdStop ∧
    ∃ t, perform 0x10024000003E8 running = .next t :=
  ⟨rfl, by decide, by decide, _, rfl⟩

theorem witness_WithTheMessageWrittenTheBlockNeverStops :
    BlockInv allWritten ∧ ∀ n, n < allWritten.build.msgCap → (allWritten.msg.read n).isSome :=
  ⟨allWrittenInv, by decide⟩

/-- The longest text of this build: 15 characters and the terminator. -/
theorem witness_PseudoInstructionsExpand :
    (Config.resetBuild.legal = true ∧ (∀ c ∈ List.replicate 15 'A', c.toNat < 128) ∧
      (List.replicate 15 'A').length + 1 ≤ Config.resetBuild.msgCap) ∧
    ∃ xs, assemble Config.resetBuild (.loadMsg (List.replicate 15 'A')) = some xs ∧ xs.length = 17 ∧
      (List.replicate 15 'A')[14]? = some 'A' :=
  ⟨⟨by decide, fun c hc => by rw [List.eq_of_mem_replicate hc]; decide, by decide⟩, _, rfl, rfl, rfl⟩

/-- A row, an illegal word, and a reset, each with a later event. -/
theorem witness_EachStepTakesExactlyTheNextEvent :
    (∃ t, step { running with port := [.txn 0x0007000000000, .reset] } = .next t ∧ t.slot = 1) ∧
    (∃ t, step { running with port := [.txn 0x0000200000000, .reset] } = .next t ∧ t.err = 1) ∧
    (∃ t, step { running with port := [.reset, .txn 0x0000200000000], rdata := 5 } = .next t ∧ t.slot = 0) :=
  ⟨⟨_, rfl, by decide⟩, ⟨_, rfl, by decide⟩, ⟨_, rfl, by decide⟩⟩

end Sys2Proof.Tests
end

section
/-! Proofs of 00_scope.md: the rounding of R9. -/

namespace Sys2Proof.Machine

/-- The three cases of R9, by twice the remainder against the divisor. -/
theorem rne_cases (n d : Nat) :
    (d < 2 * (n % d) ∧ rne n d = n / d + 1) ∨
    (2 * (n % d) < d ∧ rne n d = n / d) ∨
    (2 * (n % d) = d ∧ rne n d = n / d + n / d % 2) := by
  unfold rne
  rcases Nat.lt_trichotomy (2 * (n % d)) d with below | tie | above
  · exact .inr (.inl ⟨below, by simp [below, Nat.le_of_lt below]⟩)
  · exact .inr (.inr ⟨tie, by simp [tie]⟩)
  · exact .inl ⟨above, by simp [above]⟩

/-- At an exact half R9 picks the even one of the two neighbouring integers. -/
theorem rne_even_of_tie {n d : Nat} (tie : 2 * (n % d) = d) : rne n d % 2 = 0 := by
  obtain ⟨above, -⟩ | ⟨below, -⟩ | ⟨-, value⟩ := rne_cases n d
  · exact absurd tie (Nat.ne_of_gt above)
  · exact absurd tie (Nat.ne_of_lt below)
  · rw [value]
    omega

/-- `rne n d * d` is the multiple of `d` below `n` or the next one, and which of them the remainder says; at an exact half
both are allowed. -/
theorem rne_mul_cases (n d : Nat) :
    (2 * (n % d) ≤ d ∧ rne n d * d + n % d = n) ∨ (d ≤ 2 * (n % d) ∧ rne n d * d + n % d = n + d) := by
  have division : n / d * d + n % d = n := Nat.div_add_mod' n d
  have division_next : (n / d + 1) * d + n % d = n + d := by rw [Nat.succ_mul]; omega
  obtain ⟨above, value⟩ | ⟨below, value⟩ | ⟨tie, value⟩ := rne_cases n d
  · exact .inr ⟨Nat.le_of_lt above, value ▸ division_next⟩
  · exact .inl ⟨Nat.le_of_lt below, value ▸ division⟩
  · obtain even | odd := Nat.mod_two_eq_zero_or_one (n / d)
    · rw [even] at value
      exact .inl ⟨Nat.le_of_eq tie, value ▸ division⟩
    · rw [odd] at value
      exact .inr ⟨Nat.le_of_eq tie.symm, value ▸ division_next⟩

/-- Settles O15: twice the distance from `n` to `rne n d * d` is twice the remainder or twice what it lacks to `d`, so it
is at most `d`, and it is `d` only at an exact half. -/
theorem roundingIsNearestTiesToEven : Obligations.RoundingIsNearestTiesToEven := by
  intro n d hd
  have remainder_lt : n % d < d := Nat.mod_lt n hd
  obtain ⟨le_half, below⟩ | ⟨half_le, above⟩ := rne_mul_cases n d
  · exact ⟨by omega, by omega, fun half => rne_even_of_tie (by omega)⟩
  · exact ⟨by omega, by omega, fun half => rne_even_of_tie (by omega)⟩

end Sys2Proof.Machine
end

section
/-! Proofs of 10_state.md: STATUS as a view (R31). -/

namespace Sys2Proof.Machine

/-- A read of a register's address is the register's read row, whatever WDATA (30_encoding.md R87). -/
theorem decode_read_reg (r : Reg) (d : Word) : decode (mkTxn false r.addr d) = .instr (decodeRead r) := by
  rw [decode_mkTxn, decodeFields_reg]
  rfl

/-- A write of a register that WDATA cannot change is RO_ERR at its address and nothing else (30_encoding.md R89). -/
theorem perform_write_readOnly {r : Reg} {d : Word} (readOnly : decodeWrite d r = .illegal .readOnlyRegister)
    (s : State) : perform (mkTxn true r.addr d) s = .next (errorRecorded s 1 0 r.addr.toNat) := by
  have decoded : decode (mkTxn true r.addr d) = .illegal .readOnlyRegister := by
    rw [decode_mkTxn, decodeFields_reg]
    exact readOnly
  simp only [perform, decoded, illegalCause, txnAddr_mkTxn]
  exact failWith_eq_errorRecorded s .roErr 0 r.addr

/-- STATUS by the weights of its fields: the state code in bits 1:0, ERR_ANY in bit 2 (R22, R31). -/
theorem statusWord_eq_ofNat (err : Word) (st : StreamState) :
    statusWord err st = BitVec.ofNat 32 (st.code.toNat + if err = 0 then 0 else 4) := by
  by_cases clear : err = 0
  · subst clear
    cases st <;> rfl
  · have any : (err != 0) = true := bne_iff_ne.mpr clear
    rw [statusWord, any, if_neg clear]
    cases st <;> rfl

/-- RD_STATUS answers STATUS and changes nothing else (40_register_access.md R103). -/
theorem exec_rdStatus (s : State) : exec .rdStatus s = .next { s with rdata := statusWord s.err s.stream } :=
  answer_eq _ s

/-- After reset the stream is IDLE and ERR is 0, so STATUS has its reset value 0 (R31). -/
theorem statusWord_resetOf (b : Build) : statusWord (State.resetOf b).err (State.resetOf b).stream = 0 :=
  statusWord_eq_ofNat 0 .idle

/-- Settles O2: the row of the address, the word by its weights, its value after reset, and the refused write. -/
theorem statusReadIsTheView : Obligations.StatusReadIsTheView := by
  refine ⟨fun d => decode_read_reg .status d, fun s => ?view, fun b => ?reset,
    fun d s => perform_write_readOnly (r := .status) rfl s⟩
  case view =>
    rw [exec_rdStatus, statusWord_eq_ofNat]
    cases s.stream <;> rfl
  case reset => rw [exec_rdStatus, statusWord_resetOf]

end Sys2Proof.Machine
end

section
/-! Proofs of 20_memory.md: the table window (R64), and the transactions that are no row (R61 to R64; 30_encoding.md R89). -/

namespace Sys2Proof.Machine

/-! ## The decoder, by the number of the address (30_encoding.md R87) -/

/-- A field is 0 exactly if its number is. -/
theorem extractLsb'_eq_zero_iff {w : Nat} (x : BitVec w) (k m : Nat) :
    x.extractLsb' k m = 0 ↔ x.toNat / 2 ^ k % 2 ^ m = 0 := by
  rw [← BitVec.toNat_inj, extractLsb'_toNat]
  simp

theorem addr_low_eq_zero_iff (a : Addr) : a.extractLsb' 0 2 = 0 ↔ a.toNat % 4 = 0 := by
  simpa using extractLsb'_eq_zero_iff a 0 2

theorem decodeFields_misaligned {a : Addr} (misaligned : a.toNat % 4 ≠ 0) (we : Bool) (d : Word) :
    decodeFields we a d = .illegal .misaligned :=
  if_pos (mt (addr_low_eq_zero_iff a).mp misaligned)

/-- An offset that is no register's is not in the map. -/
theorem ofOffset_eq_none {off : BitVec 14} (unlisted : off.toNat ∉ Reg.all.map (fun r => r.offset.toNat)) :
    Reg.ofOffset off = none := by
  refine List.find?_eq_none.mpr fun r hr same => unlisted ?_
  exact List.mem_map.mpr ⟨r, hr, congrArg BitVec.toNat (beq_iff_eq.mp same)⟩

/-- An aligned register-block address outside the map (R62). -/
theorem decodeFields_unmappedOffset {a : Addr} (aligned : a.toNat % 4 = 0) (block : a.toNat < 0x4000)
    (unlisted : a.toNat ∉ Reg.all.map (fun r => r.offset.toNat)) (we : Bool) (d : Word) :
    decodeFields we a d = .illegal .unmappedOffset := by
  have low : a.extractLsb' 0 2 = 0 := (addr_low_eq_zero_iff a).mpr aligned
  have bit15 : a.getLsbD 15 = false := by rw [getLsbD_eq_div, decide_eq_false_iff_not]; omega
  have bit14 : a.getLsbD 14 = false := by rw [getLsbD_eq_div, decide_eq_false_iff_not]; omega
  have offset : (a.extractLsb' 0 14).toNat = a.toNat := by rw [extractLsb'_toNat]; omega
  rw [decodeFields, if_neg (not_not_intro low), bit15, bit14, ofOffset_eq_none (offset.symm ▸ unlisted)]
  rfl

/-- An aligned address of the message window is a cell's. -/
theorem exists_msgAddr {a : Addr} (aligned : a.toNat % 4 = 0) (above : 0x4000 ≤ a.toNat) (below : a.toNat < 0x8000) :
    ∃ n : BitVec 12, msgAddr n = a := by
  refine ⟨a.extractLsb' 2 12, BitVec.eq_of_toNat_eq ?_⟩
  rw [msgAddr_toNat, extractLsb'_toNat]
  omega

/-- An aligned address of the table window is a table word's. -/
theorem exists_lutAddr {a : Addr} (aligned : a.toNat % 4 = 0) (above : 0x8000 ≤ a.toNat) :
    ∃ n : BitVec 13, lutAddr n = a := by
  have bound := a.isLt
  refine ⟨a.extractLsb' 2 13, BitVec.eq_of_toNat_eq ?_⟩
  rw [lutAddr_toNat, extractLsb'_toNat]
  omega

/-- The word index in a message cell's address. -/
theorem msgAddr_toNat_div (n : BitVec 12) : ((msgAddr n).toNat - 0x4000) / 4 = n.toNat := by
  rw [msgAddr_toNat]
  omega

/-- The word index in a table word's address. -/
theorem lutAddr_toNat_div (n : BitVec 13) : ((lutAddr n).toNat - 0x8000) / 4 = n.toNat := by
  rw [lutAddr_toNat]
  omega

theorem ofNat_eq_lutAddr (n : BitVec 13) : BitVec.ofNat 16 (0x8000 + 4 * n.toNat) = lutAddr n := by
  rw [← lutAddr_toNat, BitVec.ofNat_toNat, BitVec.setWidth_eq]

/-- A command word with a reserved bit or a reserved opcode (30_encoding.md R83). -/
theorem decodeCommand_reserved {d : Word} (reserved : d.toNat / 16 ≠ 0 ∨ d.toNat % 16 > 2) :
    decodeCommand d = .illegal .reservedCommand := by
  have bound := d.isLt
  unfold decodeCommand
  by_cases high : d.extractLsb' 4 28 = 0
  · have opcode : (d.extractLsb' 0 4).toNat > 2 := by
      rw [extractLsb'_eq_zero_iff] at high
      rw [extractLsb'_toNat]
      omega
    have not_command (c : BitVec 4) (hc : c.toNat ≤ 2) : d.extractLsb' 0 4 ≠ c := fun same => by
      rw [same] at opcode
      omega
    rw [if_neg (not_not_intro high), if_neg (not_command 0 (by decide)), if_neg (not_command 1 (by decide)),
      if_neg (not_command 2 (by decide))]
  · rw [if_pos high]

/-! ## Performing a transaction, by what its fields decode to -/

theorem perform_row {we : Bool} {a : Addr} {d : Word} {i : Instr} (decoded : decodeFields we a d = .instr i)
    (s : State) : perform (mkTxn we a d) s = exec i s := by
  rw [← decode_mkTxn] at decoded
  simp [perform, decoded]

/-- An illegal transaction records its one error and does nothing else (30_encoding.md R89). -/
theorem perform_illegal {we : Bool} {a : Addr} {d : Word} {e : IllegalAccess}
    (decoded : decodeFields we a d = .illegal e) (s : State) :
    perform (mkTxn we a d) s = .next (errorRecorded s (illegalCause s.build e).code.toNat 0 a.toNat) := by
  rw [← decode_mkTxn] at decoded
  simp only [perform, decoded, txnAddr_mkTxn]
  exact failWith_eq_errorRecorded s _ 0 a

/-! ## The windows (R63, R64) -/

theorem exec_rdMsg_outside {n : BitVec 12} {s : State} (outside : s.build.msgCap ≤ n.toNat) :
    exec (.rdMsg n) s = .next (errorRecorded s 0 0 (msgAddr n).toNat) :=
  (if_neg (Nat.not_lt.mpr outside)).trans (failWith_eq_errorRecorded s .addrErr 0 (msgAddr n))

theorem exec_wrMsg_outside {n : BitVec 12} {s : State} (outside : s.build.msgCap ≤ n.toNat) (byte : Byte) :
    exec (.wrMsg n byte) s = .next (errorRecorded s 0 0 (msgAddr n).toNat) :=
  (if_neg (Nat.not_lt.mpr outside)).trans (failWith_eq_errorRecorded s .addrErr 0 (msgAddr n))

theorem exec_rdLut_mapped {n : BitVec 13} {w : Sample} {s : State} (mapped : lutRead s.build n.toNat = some w) :
    exec (.rdLut n) s = .next { s with rdata := BitVec.ofNat 32 w.toNat } := by
  rw [BitVec.ofNat_toNat]
  simp only [exec, execRdLut, mapped]
  exact answer_eq (tableWord w) s

theorem exec_rdLut_outside {n : BitVec 13} {s : State} (outside : s.build.T ≤ n.toNat) :
    exec (.rdLut n) s = .next (errorRecorded s 0 0 (lutAddr n).toNat) := by
  simp only [exec, execRdLut, lutRead_eq_none.mpr outside]
  exact failWith_eq_errorRecorded s .addrErr 0 (lutAddr n)

/-- Past MSG_CAP both directions are ADDR_ERR. -/
theorem perform_msgAddr_outside {n : BitVec 12} {s : State} (outside : s.build.msgCap ≤ n.toNat) (we : Bool)
    (d : Word) : perform (mkTxn we (msgAddr n) d) s = .next (errorRecorded s 0 0 (msgAddr n).toNat) := by
  cases we with
  | false =>
    rw [perform_row (decodeFields_msgAddr false n d)]
    exact exec_rdMsg_outside outside
  | true =>
    rw [perform_row (decodeFields_msgAddr true n d)]
    exact exec_wrMsg_outside outside _

/-- A write below T is RO_ERR: the table is immutable. -/
theorem perform_lutAddr_write_mapped {n : BitVec 13} {s : State} (mapped : n.toNat < s.build.T) (d : Word) :
    perform (mkTxn true (lutAddr n) d) s = .next (errorRecorded s 1 0 (lutAddr n).toNat) := by
  have cause : illegalCause s.build (.tableWrite n) = .roErr := if_pos mapped
  rw [perform_illegal (decodeFields_lutAddr true n d), cause]
  rfl

/-- Past T both directions are ADDR_ERR. -/
theorem perform_lutAddr_outside {n : BitVec 13} {s : State} (outside : s.build.T ≤ n.toNat) (we : Bool) (d : Word) :
    perform (mkTxn we (lutAddr n) d) s = .next (errorRecorded s 0 0 (lutAddr n).toNat) := by
  cases we with
  | false =>
    rw [perform_row (decodeFields_lutAddr false n d)]
    exact exec_rdLut_outside outside
  | true =>
    have cause : illegalCause s.build (.tableWrite n) = .addrErr := if_neg (Nat.not_lt.mpr outside)
    rw [perform_illegal (decodeFields_lutAddr true n d), cause]
    rfl

/-- Settles O10: the address is table word n's, and each direction has one outcome on each side of T. -/
theorem tableWindowRow : Obligations.TableWindowRow := by
  intro n d s
  rw [ofNat_eq_lutAddr, ← lutAddr_toNat, decode_mkTxn]
  exact ⟨decodeFields_lutAddr false n d, fun _ mapped => exec_rdLut_mapped mapped, exec_rdLut_outside,
    fun mapped => perform_lutAddr_write_mapped mapped d, fun outside => perform_lutAddr_outside outside true d⟩

/-! ## The transactions that are no row (30_encoding.md R89) -/

/-- The registers that no bus write changes, as R89 lists them. -/
def readOnlyRegs : List Reg :=
  [.id, .status, .errInfo, .lutLen, .msgCap, .preSlots, .postSlots, .endSlot, .step0, .step1, .slot, .phase, .sample]

/-- The decoder refuses their writes as read-only, whatever WDATA. -/
theorem decodeWrite_readOnlyRegs {r : Reg} (listed : r ∈ readOnlyRegs) (d : Word) :
    decodeWrite d r = .illegal .readOnlyRegister := by
  revert r
  simp [readOnlyRegs, decodeWrite]

theorem writeRefused_readOnlyRegs {r : Reg} (listed : r ∈ readOnlyRegs) : WriteRefused r.addr.toNat := by
  intro d s
  rw [BitVec.ofNat_toNat, BitVec.setWidth_eq]
  exact perform_write_readOnly (decodeWrite_readOnlyRegs listed d) s

/-- A write of CMD with a reserved command word is CMD_ERR (41_commands.md R150). -/
theorem perform_reservedCommand {d : Word} (reserved : d.toNat / 16 ≠ 0 ∨ d.toNat % 16 > 2) (s : State) :
    perform (mkTxn true 0x0010 d) s = .next (errorRecorded s 3 0 0x0010) :=
  perform_illegal ((decodeFields_reg true .cmd d).trans (decodeCommand_reserved reserved)) s

/-- Settles O28, row by row of R89's table: an illegal decoding records its cause, and a window address is an index that
lies past the window's capacity or below it. -/
theorem illegalTransactions : Obligations.IllegalTransactions := by
  refine ⟨fun we a d s misaligned => perform_illegal (decodeFields_misaligned misaligned we d) s,
    fun we a d s aligned block unlisted => perform_illegal (decodeFields_unmappedOffset aligned block unlisted we d) s,
    fun we a d s aligned above below outside => ?message, fun we a d s aligned above outside => ?table,
    fun a d s aligned above mapped => ?tableWrite, ?readOnly, fun d s reserved => perform_reservedCommand reserved s⟩
  case message =>
    obtain ⟨n, rfl⟩ := exists_msgAddr aligned above below
    rw [msgAddr_toNat_div] at outside
    exact perform_msgAddr_outside outside we d
  case table =>
    obtain ⟨n, rfl⟩ := exists_lutAddr aligned above
    rw [lutAddr_toNat_div] at outside
    exact perform_lutAddr_outside outside we d
  case tableWrite =>
    obtain ⟨n, rfl⟩ := exists_lutAddr aligned above
    rw [lutAddr_toNat_div] at mapped
    exact perform_lutAddr_write_mapped mapped d
  case readOnly =>
    show ∀ a ∈ readOnlyRegs.map (fun r => r.addr.toNat), WriteRefused a
    exact List.forall_mem_map.mpr fun r listed => writeRefused_readOnlyRegs listed

end Sys2Proof.Machine
end

section
/-! Proofs of 30_encoding.md: WR_ERR's mask (R85), the command words (R83), and the forms of a PULL response (R84). -/

namespace Sys2Proof.Machine

/-- A write of a register's address is the register's write row or its refusal (R87). -/
theorem decode_write_reg (r : Reg) (d : Word) : decode (mkTxn true r.addr d) = decodeWrite d r := by
  rw [decode_mkTxn, decodeFields_reg]
  rfl

/-! ## WR_ERR (R85) -/

/-- The mask is WDATA[5:0], by its number. -/
theorem errMask_eq_ofNat (d : Word) : d.extractLsb' 0 6 = BitVec.ofNat 6 (d.toNat % 64) := by
  apply BitVec.eq_of_toNat_eq
  rw [extractLsb'_toNat, BitVec.toNat_ofNat]
  omega

/-- A flag is cleared exactly by its own mask bit (40_register_access.md R105). -/
theorem getLsbD_errClear (err : Word) (mask : BitVec 6) {b : Nat} (hb : b < 32) :
    (errClear err mask).getLsbD b = (err.getLsbD b && !(decide (b < 6) && mask.getLsbD b)) := by
  rw [errClear, BitVec.getLsbD_and, BitVec.getLsbD_not, BitVec.getLsbD_setWidth]
  by_cases flag : b < 6
  · simp [hb, flag]
  · have above : mask.getLsbD b = false := BitVec.getLsbD_of_ge mask b (Nat.le_of_not_lt flag)
    simp [hb, above]

/-- Settles O11: the row of the address, the write of ERR alone, and each bit of the new ERR. -/
theorem errorClearRow : Obligations.ErrorClearRow := by
  refine ⟨fun d => ?row, fun mask s => ⟨errClear s.err mask, written_eq _, fun b => getLsbD_errClear s.err mask⟩⟩
  rw [← errMask_eq_ofNat]
  exact decode_write_reg .err d

/-! ## The command words (R83) -/

/-- Settles O12: a reserved word is refused by the decoder, and each of the three commands is decoded from its word. -/
theorem commandWords : Obligations.CommandWords :=
  ⟨fun _ s reserved => perform_reservedCommand reserved s,
    decode_write_reg .cmd 0, decode_write_reg .cmd 1, decode_write_reg .cmd 2⟩

/-! ## The PULL response (R84) -/

/-- VALID is worth 2^16 and nothing is lost. -/
theorem sampleResponse_toNat (w : Sample) : (sampleResponse w).toNat = 0x10000 + w.toNat := by
  have bound := w.isLt
  rw [sampleResponse_eq, BitVec.toNat_ofNat]
  omega

/-- VALID = 1. -/
theorem sampleResponse_valid (w : Sample) : (sampleResponse w).getLsbD 16 = true := by
  have bound := w.isLt
  rw [getLsbD_eq_div, sampleResponse_toNat, decide_eq_true_eq]
  omega

/-- EOS = 0. -/
theorem sampleResponse_eos (w : Sample) : (sampleResponse w).getLsbD 17 = false := by
  have bound := w.isLt
  rw [getLsbD_eq_div, sampleResponse_toNat, decide_eq_false_iff_not]
  omega

/-- The sample field carries the table word. -/
theorem sampleResponse_sample (w : Sample) : (sampleResponse w).extractLsb' 0 16 = w := by
  have bound := w.isLt
  apply BitVec.eq_of_toNat_eq
  rw [extractLsb'_toNat, sampleResponse_toNat]
  omega

/-- The bits 31:18 are 0. -/
theorem sampleResponse_reserved (w : Sample) : (sampleResponse w).extractLsb' 18 14 = 0 := by
  have bound := w.isLt
  rw [extractLsb'_eq_zero_iff, sampleResponse_toNat]
  omega

/-- Settles O45: each way in which a pull can answer has one of the three forms. -/
theorem pullResponsesAreTheThreeForms : Obligations.PullResponsesAreTheThreeForms := by
  intro s t pulled
  obtain ⟨idle, rfl⟩ | ⟨ended, rfl⟩ | ⟨running, -, rfl⟩ | ⟨running, bit, -, produced⟩ := execPull_cases pulled
  · exact .inr (.inr ⟨idle, rfl, raiseError_eq_errorRecorded s .pullErr 0 Reg.sample.addr⟩)
  · exact .inr (.inl ⟨by simp [ended], ended, rfl⟩)
  · exact .inr (.inl ⟨by simp [running], rfl, rfl⟩)
  · obtain ⟨w, -, rfl⟩ := produceSample_cases produced
    exact .inl ⟨running, running, w, sampleResponse_toNat w, sampleResponse_valid w, sampleResponse_eos w,
      sampleResponse_sample w, sampleResponse_reserved w⟩

end Sys2Proof.Machine
end

section
/-! Proofs of 40_register_access.md: the message read (R131), and the reads of the identity, error, configuration and
build-constant registers (R102 to R123). -/

namespace Sys2Proof.Machine

/-! ## RD_MSG (R131) -/

theorem ofNat_eq_msgAddr (n : BitVec 12) : BitVec.ofNat 16 (0x4000 + 4 * n.toNat) = msgAddr n := by
  rw [← msgAddr_toNat, BitVec.ofNat_toNat, BitVec.setWidth_eq]

/-- A written cell answers its byte, zero-extended. -/
theorem exec_rdMsg_written {n : BitVec 12} {v : Byte} {s : State} (inside : n.toNat < s.build.msgCap)
    (cell : s.msg.read n.toNat = some v) :
    exec (.rdMsg n) s = .next { s with rdata := BitVec.ofNat 32 v.toNat } := by
  rw [BitVec.ofNat_toNat]
  simp only [exec, execRdMsg, inside, cell, if_true]
  exact answer_eq (byteWord v) s

/-- No value is picked for a cell not written since reset (20_memory.md R73). -/
theorem exec_rdMsg_unwritten {n : BitVec 12} {s : State} (inside : n.toNat < s.build.msgCap)
    (cell : s.msg.read n.toNat = none) : exec (.rdMsg n) s = .fault .unwrittenMsg := by
  simp only [exec, execRdMsg, inside, cell, if_true]

/-- Settles O8: the address is message cell n's, and below MSG_CAP the cell was written or not. -/
theorem messageReadRow : Obligations.MessageReadRow := by
  intro n d s
  rw [ofNat_eq_msgAddr, ← msgAddr_toNat, decode_mkTxn]
  exact ⟨decodeFields_msgAddr false n d, fun inside _ cell => exec_rdMsg_written inside cell, exec_rdMsg_unwritten,
    exec_rdMsg_outside⟩

/-! ## Register reads (R100) -/

/-- A register whose read row answers `value` is read at its own address, and the read changes nothing but `rdata`. -/
theorem readsAs_reg (r : Reg) {value : State → Word} (answers : ∀ s, exec (decodeRead r) s = answer (value s) s) :
    ReadsAs r.addr.toNat (decodeRead r) value := by
  intro d s
  rw [BitVec.ofNat_toNat, BitVec.setWidth_eq]
  exact ⟨decode_read_reg r d, (answers s).trans (answer_eq _ s)⟩

/-- Settles O1: both rows answer a constant. -/
theorem idAndCommandPortReads : Obligations.IdAndCommandPortReads :=
  ⟨readsAs_reg .id fun _ => rfl, readsAs_reg .cmd fun _ => rfl⟩

/-- RD_ERR's response keeps the six flags and zeroes the reserved bits (R104), by its number. -/
theorem errReadWord_eq_ofNat (err : Word) : errReadWord err = BitVec.ofNat 32 (err.toNat % 64) := by
  apply BitVec.eq_of_toNat_eq
  rw [errReadWord, BitVec.toNat_setWidth, extractLsb'_toNat, BitVec.toNat_ofNat]
  simp

/-- Settles O3: RD_ERR answers the flags alone, RD_ERR_INFO its whole register. -/
theorem errorRegisterReads : Obligations.ErrorRegisterReads := by
  refine ⟨readsAs_reg .err fun s => ?_, readsAs_reg .errInfo fun _ => rfl⟩
  rw [← errReadWord_eq_ofNat]
  rfl

/-- Settles O4: each of the seven rows answers its own register. -/
theorem configurationReads : Obligations.ConfigurationReads :=
  ⟨readsAs_reg .fs fun _ => rfl, readsAs_reg .f0 fun _ => rfl, readsAs_reg .f1 fun _ => rfl,
    readsAs_reg .baud fun _ => rfl, readsAs_reg .tstartMs fun _ => rfl, readsAs_reg .tstopMs fun _ => rfl,
    readsAs_reg .msgLen fun _ => rfl⟩

/-- Settles O5: both rows answer a constant of the build, and both registers are on R89's list of read-only ones. -/
theorem buildConstantReads : Obligations.BuildConstantReads :=
  ⟨readsAs_reg .lutLen fun _ => rfl, readsAs_reg .msgCap fun _ => rfl,
    writeRefused_readOnlyRegs (r := .lutLen) (by decide), writeRefused_readOnlyRegs (r := .msgCap) (by decide)⟩

end Sys2Proof.Machine
end

section
/-! Proofs of 41_commands.md: NOP (R151), START (R152 to R155), STOP (R156), and the transition relation of `state` (R157). -/

namespace Sys2Proof.Machine

/-! ## CMD_NOP (R151) -/

/-- Settles O13: the row of the word, and a write that leaves every register, cell and flag alone. -/
theorem nopRow : Obligations.NopRow :=
  ⟨decode_write_reg .cmd 0, fun s => written_eq s⟩

/-! ## CMD_START (R152): the refusals, in the rule's order -/

theorem exec_cmdStart_running {s : State} (running : s.stream = .run) :
    exec .cmdStart s = .next (errorRecorded s 3 0 0x0010) :=
  (if_pos running).trans (failWith_eq_errorRecorded s .cmdErr 0 Reg.cmd.addr)

theorem exec_cmdStart_noSampleRate {s : State} (stopped : s.stream ≠ .run) (noRate : s.fs = 0) :
    exec .cmdStart s = .next (errorRecorded s 4 1 0x0010) :=
  (if_neg stopped).trans <| (if_pos noRate).trans (failWith_eq_errorRecorded s .cfgErr 1 Reg.cmd.addr)

theorem exec_cmdStart_messageTooLong {s : State} (stopped : s.stream ≠ .run) (rate : s.fs ≠ 0)
    (tooLong : s.msgLen.toNat > s.build.msgCap) : exec .cmdStart s = .next (errorRecorded s 4 2 0x0010) :=
  (if_neg stopped).trans <| (if_neg rate).trans <|
    (if_pos tooLong).trans (failWith_eq_errorRecorded s .cfgErr 2 Reg.cmd.addr)

theorem exec_cmdStart_streamTooLong {s : State} (stopped : s.stream ≠ .run) (rate : s.fs ≠ 0)
    (fits : s.msgLen.toNat ≤ s.build.msgCap) (tooLong : configuredEnd s > 2 ^ 32 - 1) :
    exec .cmdStart s = .next (errorRecorded s 4 3 0x0010) :=
  (if_neg stopped).trans <| (if_neg rate).trans <| (if_neg (Nat.not_lt.mpr fits)).trans <|
    (if_pos tooLong).trans (failWith_eq_errorRecorded s .cfgErr 3 Reg.cmd.addr)

/-! ## CMD_START (R152 to R155): what an accepted one latches -/

theorem exec_cmdStart_accepted {s : State} (accepted : StartAccepted s) :
    exec .cmdStart s = .next (s.startStream.respond 0) :=
  execCmdStart_accepted accepted

/-- END is PRE_SLOTS, ten slots for each message byte, and POST_SLOTS, before any of them is cut to 32 bits (R154). -/
theorem configuredEnd_eq (s : State) :
    configuredEnd s = slotCount s.tstartMs s.baud + 10 * s.msgLen.toNat + slotCount s.tstopMs s.baud := rfl

/-- An END that fits 32 bits bounds both of its slot counts, so the three registers hold them exactly. -/
theorem startStream_slots_toNat {s : State} (fits : configuredEnd s < 2 ^ 32) :
    s.startStream.preSlots.toNat = slotCount s.tstartMs s.baud ∧
    s.startStream.postSlots.toNat = slotCount s.tstopMs s.baud ∧
    s.startStream.endSlot.toNat = configuredEnd s := by
  have sum := configuredEnd_eq s
  simp only [State.startStream_preSlots, State.startStream_postSlots, State.startStream_endSlot,
    timelineLength_eq_configuredEnd, BitVec.toNat_ofNat]
  exact ⟨Nat.mod_eq_of_lt (by omega), Nat.mod_eq_of_lt (by omega), Nat.mod_eq_of_lt fits⟩

/-- A phase step is below M ≤ 2^29, so its register holds it exactly (R155). -/
theorem phaseStep_toNat {b : Build} (legal : b.legal = true) (f fs : Word) :
    (BitVec.ofNat 32 (phaseStep b f fs)).toNat = phaseStep b f fs := by
  have below := phaseStep_lt legal f fs
  have bound := Build.M_le legal
  rw [BitVec.toNat_ofNat, Nat.mod_eq_of_lt (by omega)]

/-- Settles O14: each test of R152 in its order, and the five constants of an accepted START, exact in their registers. -/
theorem startRow : Obligations.StartRow := by
  refine ⟨decode_write_reg .cmd 1, fun s legal => ⟨exec_cmdStart_running, exec_cmdStart_noSampleRate,
    exec_cmdStart_messageTooLong, exec_cmdStart_streamTooLong, fun stopped rate fits short => ?accepted⟩⟩
  case accepted =>
    have inRange : configuredEnd s < 2 ^ 32 := by omega
    obtain ⟨pre, post, last⟩ := startStream_slots_toNat inRange
    refine ⟨_, _, _, _, _, exec_cmdStart_accepted ⟨stopped, rate, fits, inRange⟩, pre, post, ?_,
      phaseStep_toNat legal s.f0 s.fs, phaseStep_toNat legal s.f1 s.fs⟩
    rw [last, pre, post, configuredEnd_eq]

/-! ## CMD_STOP (R156) -/

theorem exec_cmdStop_idle {s : State} (idle : s.stream = .idle) :
    exec .cmdStop s = .next (errorRecorded s 3 0 0x0010) := by
  simp only [exec, execCmdStop, idle]
  exact failWith_eq_errorRecorded s .cmdErr 0 Reg.cmd.addr

theorem exec_cmdStop_running {s : State} (running : s.stream = .run) :
    exec .cmdStop s = .next { s with stream := .done, rdata := 0 } := by
  simp only [exec, execCmdStop, running, written_eq]

theorem exec_cmdStop_done {s : State} (ended : s.stream = .done) :
    exec .cmdStop s = .next { s with rdata := 0 } := by
  simp only [exec, execCmdStop, ended, written_eq]

/-- A STOP that completes leaves IDLE alone and ends every stream. -/
theorem exec_cmdStop_stream {s t : State} (h : exec .cmdStop s = .next t) :
    t.stream = if s.stream = .idle then .idle else .done := by
  cases state : s.stream with
  | idle =>
    rw [exec_cmdStop_idle state] at h
    cases h
    exact state
  | run =>
    rw [exec_cmdStop_running state] at h
    cases h
    rfl
  | done =>
    rw [exec_cmdStop_done state] at h
    cases h
    exact state

/-- A PULL in DONE answers EOS and changes nothing else (43_nco_lut.md R192). -/
theorem exec_pull_done {s : State} (ended : s.stream = .done) :
    exec .pull s = .next { s with rdata := eosResponse } := by
  simp only [exec, execPull, ended, answer_eq]

/-- DONE is kept by its pulls, so each of them answers EOS. -/
theorem pullResponses_done (n : Nat) {s : State} (ended : s.stream = .done) :
    pullResponses n s = List.replicate n eosResponse := by
  induction n generalizing s with
  | zero => rfl
  | succ n ih =>
    have later := ih (s := { s with rdata := eosResponse }) ended
    simp only [pullResponses, exec_pull_done ended, later, List.replicate_succ]

/-- Settles O16: one outcome in each state, and DONE after a STOP answers EOS from then on. -/
theorem stopRow : Obligations.StopRow := by
  refine ⟨decode_write_reg .cmd 2, fun s => ⟨exec_cmdStop_idle, exec_cmdStop_running, exec_cmdStop_done,
    fun active t stopped => ?_⟩⟩
  have ended : t.stream = .done := (exec_cmdStop_stream stopped).trans (if_neg active)
  refine ⟨exec_pull_done ended, fun n r answered => ?_⟩
  rw [pullResponses_done n ended] at answered
  exact List.eq_of_mem_replicate answered

/-! ## The transition relation of `state` (R157) -/

/-- A recorded error leaves `state`. -/
theorem failWith_stream {c : Cause} {r : BitVec 2} {a : Addr} {s t : State} (h : failWith c r a s = .next t) :
    t.stream = s.stream := by
  cases h
  rfl

/-- An accepted START runs the stream; a refused one records its error only. -/
theorem exec_cmdStart_stream {s t : State} (h : exec .cmdStart s = .next t) :
    t.stream = if StartAccepted s then .run else s.stream := by
  by_cases accepted : StartAccepted s
  · rw [exec_cmdStart_accepted accepted] at h
    cases h
    exact (if_pos accepted).symm
  · obtain ⟨c, r, -, refused⟩ := execCmdStart_refused accepted
    rw [if_neg accepted]
    exact failWith_stream (refused.symm.trans h)

/-- A PULL ends a running stream exactly at END: the framer is done from END on (42_bit_framer.md R173) and only there. -/
theorem exec_pull_stream {s t : State} (order : s.preSlots.toNat ≤ s.endSlot.toNat) (h : exec .pull s = .next t) :
    t.stream = if s.stream = .run ∧ s.endSlot.toNat ≤ s.slot.toNat then .done else s.stream := by
  obtain ⟨idle, rfl⟩ | ⟨ended, rfl⟩ | ⟨running, ⟨bit, framed⟩, rfl⟩ | ⟨running, bit, framed, produced⟩ :=
    execPull_cases h
  · simp [idle]
  · simp [ended]
  · simp [running, frame_done framed]
  · have before : ¬ s.endSlot.toNat ≤ s.slot.toNat := fun past => by
      rw [frame_end (Nat.le_trans order past) past] at framed
      cases framed
    obtain ⟨w, -, rfl⟩ := produceSample_cases produced
    simp [before]

/-- Every other row leaves `state`. -/
theorem exec_stream_of_ne {i : Instr} {s t : State} (notStart : i ≠ .cmdStart) (notStop : i ≠ .cmdStop)
    (notPull : i ≠ .pull) (h : exec i s = .next t) : t.stream = s.stream := by
  cases exec_effect h
  case started row _ _ => exact absurd row notStart
  case stopped row _ _ => exact absurd row notStop
  case ended row _ _ _ _ => exact absurd row notPull
  case sampled row _ _ _ _ _ _ => exact absurd row notPull
  all_goals
    subst t
    rfl

/-- Settles O17: the `_stream` lemmas give a row's new `state`; an illegal transaction records its error, and a reset
takes the reset state. -/
theorem stateTransitionRelation : Obligations.StateTransitionRelation := by
  refine ⟨fun i s t order h => ⟨?accepted, ?refused, ?stopIdle, ?stop, ?pullEnd, ?pullBefore, ?pullOutside,
    fun notStart notStop notPull => exec_stream_of_ne notStart notStop notPull h⟩, ?illegal, ?reset⟩
  case accepted =>
    rintro rfl accepted
    exact (exec_cmdStart_stream h).trans (if_pos accepted)
  case refused =>
    rintro rfl refused
    exact (exec_cmdStart_stream h).trans (if_neg refused)
  case stopIdle =>
    rintro rfl idle
    exact (exec_cmdStop_stream h).trans (if_pos idle)
  case stop =>
    rintro rfl active
    exact (exec_cmdStop_stream h).trans (if_neg active)
  case pullEnd =>
    rintro rfl running past
    exact (exec_pull_stream order h).trans (if_pos ⟨running, past⟩)
  case pullBefore =>
    rintro rfl running before
    rw [exec_pull_stream order h, if_neg fun ⟨_, past⟩ => Nat.not_le.mpr before past, running]
  case pullOutside =>
    rintro rfl outside
    exact (exec_pull_stream order h).trans (if_neg fun ⟨running, _⟩ => outside running)
  case illegal =>
    intro x e s t illegal h
    simp only [perform, illegal] at h
    exact failWith_stream h
  case reset =>
    intro s t rest pending h
    obtain ⟨-, ⟨idle, -⟩ | ⟨rest', -, rfl⟩ | ⟨x, rest', first, -⟩⟩ := step_cases h
    · cases pending.symm.trans idle
    · rfl
    · cases pending.symm.trans first

end Sys2Proof.Machine
end

section
/-! Proofs of 42_bit_framer.md: frame(i) region by region (R171 to R175). -/

namespace Sys2Proof.Machine

/-! ## The framer: its regions (R171) -/

/-- Preamble (R172). -/
theorem frame_preamble {s : State} {i : Nat} (before : i < s.preSlots.toNat) : frame s i = .slot true false :=
  if_pos before

/-- Frames (R174): the slot's place counted from P. -/
theorem frame_frames {s : State} {j : Nat} (before : s.preSlots.toNat + j < s.endSlot.toNat)
    (inside : j < 10 * s.msgLen.toNat) : frame s (s.preSlots.toNat + j) = frameSlot s.msg s.msgLen.toNat j := by
  simp only [frame]
  rw [if_neg (by omega), if_neg (by omega), Nat.add_sub_cancel_left, if_pos inside]

/-- Postamble (R175). -/
theorem frame_postamble {s : State} {i : Nat} (past : s.preSlots.toNat + 10 * s.msgLen.toNat ≤ i)
    (before : i < s.endSlot.toNat) : frame s i = .slot true false := by
  simp only [frame]
  rw [if_neg (by omega), if_neg (by omega), if_neg (by omega)]

/-! ## The framer: the ten slots of a frame (R174) -/

theorem frameSlot_start (m : Memory) (len b : Nat) : frameSlot m len (10 * b) = .slot false false :=
  if_pos (Nat.mul_mod_right 10 b)

theorem frameSlot_stop (m : Memory) (len b : Nat) : frameSlot m len (10 * b + 9) = .slot true false := by
  have pos : (10 * b + 9) % 10 = 9 := by omega
  simp [frameSlot, pos]

/-- Slot k in 1..8 of frame b is data bit k - 1 of byte b. -/
theorem frameSlot_data (m : Memory) (len b : Nat) {k : Nat} (first : 1 ≤ k) (last : k ≤ 8) :
    frameSlot m len (10 * b + k) = dataBit m len b (k - 1) := by
  have byte : (10 * b + k) / 10 = b := by omega
  have pos : (10 * b + k) % 10 = k := by omega
  simp only [frameSlot, byte, pos]
  rw [if_neg (by omega), if_neg (by omega)]

theorem dataBit_written {m : Memory} {len b p : Nat} {v : Byte} (bit : p ≤ 7) (inside : b < len)
    (written : m.read b = some v) : dataBit m len b p = .slot (v.getLsbD p) false := by
  rw [dataBit, if_neg (by omega), written]

theorem dataBit_unwritten {m : Memory} {len b p : Nat} (bit : p ≤ 7) (inside : b < len)
    (unwritten : m.read b = none) : dataBit m len b p = .fault .unwrittenMsg := by
  rw [dataBit, if_neg (by omega), unwritten]

/-- Slot k of byte b stands in the frames region, and `frame` gives it by its place in the byte's frame. -/
theorem frame_slotOfByte {s : State} {b k : Nat}
    (timeline : s.endSlot.toNat = s.preSlots.toNat + 10 * s.msgLen.toNat + s.postSlots.toNat)
    (byte : b < s.msgLen.toNat) (slot : k ≤ 9) :
    frame s (s.preSlots.toNat + 10 * b + k) = frameSlot s.msg s.msgLen.toNat (10 * b + k) := by
  rw [Nat.add_assoc]
  exact frame_frames (by omega) (by omega)

/-- Settles O21: one lemma for each region of R171, and within the frames one for each kind of slot. -/
theorem framerIsTheTimeline : Obligations.FramerIsTheTimeline := by
  intro s i timeline
  refine ⟨frame_preamble, frame_postamble, fun past => frame_end (by omega) past, ?frames⟩
  rintro b k byte rfl
  refine ⟨?start, ?stop, fun first last v written => ?data, fun first last unwritten => ?unwritten⟩
  case start =>
    rintro rfl
    rw [frame_slotOfByte timeline byte (by omega)]
    exact frameSlot_start _ _ b
  case stop =>
    rintro rfl
    rw [frame_slotOfByte timeline byte (by omega)]
    exact frameSlot_stop _ _ b
  case data =>
    rw [frame_slotOfByte timeline byte (by omega), frameSlot_data _ _ b first last]
    exact dataBit_written (by omega) byte written
  case unwritten =>
    rw [frame_slotOfByte timeline byte (by omega), frameSlot_data _ _ b first last]
    exact dataBit_unwritten (by omega) byte unwritten

end Sys2Proof.Machine
end

section
/-! Proofs of 43_nco_lut.md: PULL by the stream's state and the framer's answer (R190 to R194). -/

namespace Sys2Proof.Machine

/-! ## PULL without a stream (R191, R192) -/

theorem exec_pull_idle {s : State} (idle : s.stream = .idle) :
    exec .pull s = .next (errorRecorded s 5 0 0x0070) := by
  simp only [exec, execPull, idle]
  exact failWith_eq_errorRecorded s .pullErr 0 Reg.sample.addr

/-- Settles O18: IDLE records the one error of a pull, DONE answers EOS. -/
theorem pullWithoutStream : Obligations.PullWithoutStream :=
  fun _ => ⟨exec_pull_idle, exec_pull_done⟩

/-! ## PULL of a running stream (R190, R193, R194) -/

theorem exec_pull_running {s : State} (running : s.stream = .run) : exec .pull s = pullRunning s := by
  simp only [exec, execPull, running]

/-- From END on the stream ends, and the pull that meets END answers EOS. -/
theorem exec_pull_end {s : State} {bit : Bool} (running : s.stream = .run)
    (framed : frame s s.slot.toNat = .slot bit true) :
    exec .pull s = .next { s with stream := .done, rdata := eosResponse } := by
  simp only [exec_pull_running running, pullRunning, framed, answer_eq]

theorem exec_pull_bit {s : State} {bit : Bool} (running : s.stream = .run)
    (framed : frame s s.slot.toNat = .slot bit false) : exec .pull s = produceSample bit s := by
  simp only [exec_pull_running running, pullRunning, framed]

theorem exec_pull_fault {s : State} {f : Fault} (running : s.stream = .run)
    (framed : frame s s.slot.toNat = .fault f) : exec .pull s = .fault f := by
  simp only [exec_pull_running running, pullRunning, framed]

/-- The bit's step by its number (R194). -/
theorem stepFor_toNat (s : State) (bit : Bool) :
    (s.stepFor bit).toNat = if bit then s.step1.toNat else s.step0.toNat :=
  apply_ite BitVec.toNat _ _ _

theorem produceSample_eq {s : State} {bit : Bool} {w : Sample}
    (entry : lutRead s.build (tableIndex (nextPhase s.build s.phase (s.stepFor bit))) = some w) :
    produceSample bit s = .next { s with
      slot := s.slot + 1
      phase := BitVec.ofNat 32 (nextPhase s.build s.phase (s.stepFor bit))
      rdata := sampleResponse w } := by
  simp only [produceSample, entry, answer_eq]

/-- On a legal build a produced sample is the table word at the advanced phase, which its register holds exactly
(R195, R196). -/
theorem produceSample_legal {s : State} (legal : s.build.legal = true) (bit : Bool) :
    ∃ (w : Sample) (idx : Word),
      idx.toNat = (s.phase.toNat + (s.stepFor bit).toNat) % s.build.M ∧
      lutRead s.build (tableIndex idx.toNat) = some w ∧
      produceSample bit s = .next { s with slot := s.slot + 1, phase := idx, rdata := sampleResponse w } := by
  obtain ⟨w, entry⟩ := lutRead_nextPhase legal s.phase (s.stepFor bit)
  have phase := toNat_nextPhase legal s.phase (s.stepFor bit)
  refine ⟨w, _, phase, ?_, produceSample_eq entry⟩
  rw [phase]
  exact entry

/-- Settles O19: one lemma for each state of the stream, and in RUN one for each answer of the framer. -/
theorem pullRow : Obligations.PullRow := by
  refine ⟨decode_read_reg .sample, fun s legal => ⟨exec_pull_idle, exec_pull_done,
    fun running _ framed => exec_pull_end running framed, fun running bit framed => ?sample,
    fun running _ framed => exec_pull_fault running framed⟩⟩
  case sample =>
    obtain ⟨w, idx, phase, entry, produced⟩ := produceSample_legal legal bit
    rw [stepFor_toNat] at phase
    rw [sampleResponse_eq] at produced
    exact ⟨w, idx, phase, entry, (exec_pull_bit running framed).trans produced⟩

end Sys2Proof.Machine
end

section
/-! Proofs of 70_reset_and_hazards.md: the state after a reset at the port (R251). -/

namespace Sys2Proof.Machine

/-- A legal build is not refused, so a step is the next port event (60_exceptions.md R234). -/
theorem step_eq_handleEvent {s : State} (legal : s.build.legal = true) : step s = handleEvent s := by
  rw [step, buildRefusal_eq_none.mpr legal]

/-- A reset at the port completes in every state, and keeps nothing but the build and the later events. -/
theorem step_reset {s : State} {rest : List PortEvent} (legal : s.build.legal = true)
    (pending : s.port = .reset :: rest) : step s = .next { State.resetOf s.build with port := rest } := by
  rw [step_eq_handleEvent legal, handleEvent, pending]
  rfl

/-! ## The reads of the identity and of the build's constants (R102, R122, R123) -/

theorem exec_rdId (s : State) : exec .rdId s = .next { s with rdata := 0x46534B4D } :=
  answer_eq _ s

theorem exec_rdLutLen (s : State) :
    exec .rdLutLen s = .next { s with rdata := BitVec.ofNat 32 s.build.lut.length } :=
  answer_eq _ s

theorem exec_rdMsgCap (s : State) : exec .rdMsgCap s = .next { s with rdata := BitVec.ofNat 32 s.build.msgCap } :=
  answer_eq _ s

/-- STATUS reads 0 after a reset, whatever events are still to come. -/
theorem exec_rdStatus_resetOf (b : Build) (rest : List PortEvent) :
    exec .rdStatus { State.resetOf b with port := rest } =
      .next { State.resetOf b with port := rest, rdata := 0 } := by
  simp only [exec_rdStatus, statusWord_resetOf]

/-- Settles O29: the step takes the reset state of its own build, which has each register's value by definition, an empty
message RAM, and one lemma for each of the four reads. -/
theorem resetEvent : Obligations.ResetEvent := by
  intro s rest legal pending
  refine ⟨_, step_reset legal pending, ?_⟩
  have cells (n : Nat) : (State.resetOf s.build).msg.read n = none := Memory.read_nil n
  exact ⟨rfl, rfl, rfl, rfl, rfl, rfl, rfl, rfl, rfl, rfl, rfl, rfl, rfl, rfl, rfl, rfl, rfl, cells, rfl,
    exec_rdId _, exec_rdLutLen _, exec_rdMsgCap _, exec_rdStatus_resetOf s.build rest⟩

end Sys2Proof.Machine
end

section
/-! Proofs of 10_state.md: the invariant of section 10 at reset and over every step (R40, with R25 to R29 and R34). -/

namespace Sys2Proof.Machine

/-! ## ERR_INFO's fields (R29), read from the captured word by its number -/

/-- ECAUSE is the cause's number. -/
theorem errInfoWord_cause (c : Cause) (r : BitVec 2) (a : Addr) :
    (errInfoWord c r a).extractLsb' 16 3 = c.code := by
  have bounds := And.intro r.isLt (And.intro c.code.isLt a.isLt)
  apply BitVec.eq_of_toNat_eq
  rw [extractLsb'_toNat, errInfoWord_toNat]
  omega

/-- ECFG is the reason. -/
theorem errInfoWord_reason (c : Cause) (r : BitVec 2) (a : Addr) :
    (errInfoWord c r a).extractLsb' 20 2 = r := by
  have bounds := And.intro r.isLt (And.intro c.code.isLt a.isLt)
  apply BitVec.eq_of_toNat_eq
  rw [extractLsb'_toNat, errInfoWord_toNat]
  omega

/-- EADDR is the transaction's address. -/
theorem errInfoWord_addr (c : Cause) (r : BitVec 2) (a : Addr) :
    (errInfoWord c r a).extractLsb' 0 16 = a := by
  have bounds := And.intro r.isLt (And.intro c.code.isLt a.isLt)
  apply BitVec.eq_of_toNat_eq
  rw [extractLsb'_toNat, errInfoWord_toNat]
  omega

/-- EVALID is set. -/
theorem errInfoWord_valid (c : Cause) (r : BitVec 2) (a : Addr) : (errInfoWord c r a).getLsbD 31 = true := by
  have bounds := And.intro r.isLt (And.intro c.code.isLt a.isLt)
  rw [getLsbD_eq_div, errInfoWord_toNat, decide_eq_true_eq]
  omega

/-- Bits 19 and 30:22 are 0. -/
theorem errInfoWord_reserved (c : Cause) (r : BitVec 2) (a : Addr) :
    (errInfoWord c r a).extractLsb' 19 1 = 0 ∧ (errInfoWord c r a).extractLsb' 22 9 = 0 := by
  have bounds := And.intro r.isLt (And.intro (Cause.code_le c) a.isLt)
  rw [extractLsb'_eq_zero_iff, extractLsb'_eq_zero_iff, errInfoWord_toNat]
  omega

/-! ## The error registers' part of the invariant (R28, R29) -/

/-- What `BlockInv` says of ERR and ERR_INFO, which no other register enters. -/
structure ErrorsInv (err errInfo : Word) : Prop where
  flags : err.toNat < 2 ^ 6
  reserved : errInfo.extractLsb' 19 1 = 0 ∧ errInfo.extractLsb' 22 9 = 0
  cause : (errInfo.extractLsb' 16 3).toNat ≤ 5 ∧ (errInfo.extractLsb' 16 3 ≠ 4 → errInfo.extractLsb' 20 2 = 0)
  valid : (err ≠ 0 → errInfo.getLsbD 31 = true) ∧ (errInfo.getLsbD 31 = false → errInfo = 0)

theorem BlockInv.errors {s : State} (inv : BlockInv s) : ErrorsInv s.err s.errInfo :=
  ⟨inv.err_reserved, inv.info_reserved, inv.info_cause, inv.info_valid⟩

theorem ErrorsInv.zero : ErrorsInv 0 0 where
  flags := by decide
  reserved := by decide
  cause := by decide
  valid := by decide

/-- The captured word of an error whose ECFG is 0 but for CFG_ERR, with any flags set. -/
theorem ErrorsInv.captured {err : Word} {c : Cause} {r : BitVec 2} (a : Addr) (flags : err.toNat < 2 ^ 6)
    (reason : c ≠ .cfgErr → r = 0) : ErrorsInv err (errInfoWord c r a) where
  flags := flags
  reserved := errInfoWord_reserved c r a
  cause := by
    rw [errInfoWord_cause, errInfoWord_reason]
    exact ⟨c.code_le, fun other => reason fun isCfg => other (isCfg ▸ rfl)⟩
  valid := by
    refine ⟨fun _ => errInfoWord_valid c r a, fun invalid => ?_⟩
    cases (errInfoWord_valid c r a).symm.trans invalid

/-- Raising an error sets one of the six flags, and captures the error exactly if no flag was set. -/
theorem ErrorsInv.raise {s : State} (errors : ErrorsInv s.err s.errInfo) {c : Cause} {r : BitVec 2} (a : Addr)
    (reason : c ≠ .cfgErr → r = 0) : ErrorsInv (s.raiseError c r a).err (s.raiseError c r a).errInfo := by
  have flag : c.flag.toNat < 2 ^ 6 := by cases c <;> decide
  have flags : (s.err ||| c.flag).toNat < 2 ^ 6 := by
    rw [BitVec.toNat_or]
    exact Nat.or_lt_two_pow errors.flags flag
  rw [State.raiseError_err, State.raiseError_errInfo]
  by_cases clear : s.err = 0
  · rw [if_pos clear]
    exact .captured a flags reason
  · rw [if_neg clear]
    exact ⟨flags, errors.reserved, errors.cause, fun _ => errors.valid.1 clear, errors.valid.2⟩

/-- Clearing flags leaves ERR_INFO, and a flag that stays was set before. -/
theorem ErrorsInv.clear {err errInfo : Word} (errors : ErrorsInv err errInfo) (mask : BitVec 6) :
    ErrorsInv (errClear err mask) errInfo where
  flags := by
    rw [errClear, BitVec.toNat_and]
    exact Nat.lt_of_le_of_lt Nat.and_le_left errors.flags
  reserved := errors.reserved
  cause := errors.cause
  valid := by
    refine ⟨fun set => errors.valid.1 fun clear => set ?_, errors.valid.2⟩
    rw [clear]
    exact BitVec.zero_and

/-! ## What each kind of update keeps -/

/-- The invariant does not mention the configuration registers but MSG_LEN, nor `rdata`, nor the port. -/
theorem BlockInv.unmentioned {s : State} (inv : BlockInv s) (fs f0 f1 baud tstartMs tstopMs rdata : Word)
    (port : List PortEvent) :
    BlockInv { s with fs, f0, f1, baud, tstartMs, tstopMs, rdata, port } :=
  ⟨inv.build_legal, inv.msg_wf, inv.msg_below, inv.phase_lt, inv.step0_lt, inv.step1_lt, inv.timeline, inv.running,
    inv.idle, inv.err_reserved, inv.info_reserved, inv.info_cause, inv.info_valid⟩

theorem BlockInv.withRdata {s : State} (inv : BlockInv s) (v : Word) : BlockInv { s with rdata := v } :=
  inv.unmentioned ..

theorem BlockInv.withPort {s : State} (inv : BlockInv s) (port : List PortEvent) : BlockInv { s with port } :=
  inv.unmentioned ..

theorem BlockInv.withErrors {s : State} (inv : BlockInv s) {err errInfo : Word} (errors : ErrorsInv err errInfo) :
    BlockInv { s with err, errInfo } :=
  { inv with
    err_reserved := errors.flags
    info_reserved := errors.reserved
    info_cause := errors.cause
    info_valid := errors.valid }

/-- Outside RUN, MSG_LEN is free: END keeps the L latched at START. -/
theorem BlockInv.withMsgLen {s : State} (inv : BlockInv s) (free : s.stream ≠ .run) (v : Word) :
    BlockInv { s with msgLen := v } :=
  { inv with running := fun running => absurd running free }

/-- A cell below MSG_CAP may be written. -/
theorem BlockInv.withCell {s : State} (inv : BlockInv s) {n : Nat} (inside : n < s.build.msgCap) (v : Byte) :
    BlockInv { s with msg := s.msg.write n v } :=
  { inv with
    msg_wf := Memory.write_wf n v inv.msg_wf
    msg_below := Memory.write_below v inside inv.msg_below }

/-- A running stream may end at any slot. -/
theorem BlockInv.ended {s : State} (inv : BlockInv s) (running : s.stream = .run) :
    BlockInv { s with stream := .done } :=
  { inv with
    timeline := fun _ => inv.timeline (by simp [running])
    running := nofun
    idle := nofun }

/-- An accepted START latches a timeline of MSG_LEN bytes, and both of its steps are below M (41_commands.md R155). -/
theorem BlockInv.started {s : State} (inv : BlockInv s) (accepted : StartAccepted s) : BlockInv s.startStream := by
  obtain ⟨-, -, fits, short⟩ := accepted
  obtain ⟨pre, post, last⟩ := startStream_slots_toNat short
  have timeline : s.startStream.endSlot.toNat =
      s.startStream.preSlots.toNat + 10 * s.msgLen.toNat + s.startStream.postSlots.toNat := by
    rw [last, pre, post, configuredEnd_eq]
  exact { inv with
    phase_lt := Build.M_pos inv.build_legal
    step0_lt := (phaseStep_toNat inv.build_legal s.f0 s.fs).symm ▸ phaseStep_lt inv.build_legal s.f0 s.fs
    step1_lt := (phaseStep_toNat inv.build_legal s.f1 s.fs).symm ▸ phaseStep_lt inv.build_legal s.f1 s.fs
    timeline := fun _ => ⟨Nat.zero_le _, s.msgLen.toNat, fits, timeline⟩
    running := fun _ => ⟨fits, timeline⟩
    idle := nofun }

/-- PRE_SLOTS ≤ END_SLOT while a stream runs. -/
theorem BlockInv.preSlots_le {s : State} (inv : BlockInv s) (running : s.stream = .run) :
    s.preSlots.toNat ≤ s.endSlot.toNat := by
  obtain ⟨-, timeline⟩ := inv.running running
  omega

/-- A slot that the framer answers without `done` is before END (42_bit_framer.md R173). -/
theorem slot_lt_of_frame {s : State} {i : Nat} {bit : Bool} (order : s.preSlots.toNat ≤ s.endSlot.toNat)
    (framed : frame s i = .slot bit false) : i < s.endSlot.toNat := by
  apply Nat.lt_of_not_le
  intro past
  rw [frame_end (Nat.le_trans order past) past] at framed
  cases framed

/-- A sample moves SLOT by one, to END at most, and takes the phase modulo M (43_nco_lut.md R193, R195). -/
theorem BlockInv.sampled {s : State} (inv : BlockInv s) (before : s.slot.toNat < s.endSlot.toNat)
    (running : s.stream = .run) (step : Word) :
    BlockInv { s with slot := s.slot + 1, phase := BitVec.ofNat 32 (nextPhase s.build s.phase step) } := by
  have slot : (s.slot + 1).toNat ≤ s.endSlot.toNat := by
    rw [BitVec.toNat_add]
    exact Nat.le_trans (Nat.mod_le _ _) before
  obtain ⟨-, length⟩ := inv.timeline (by simp [running])
  exact { inv with
    phase_lt := toNat_nextPhase inv.build_legal s.phase step ▸ Nat.mod_lt _ (Build.M_pos inv.build_legal)
    timeline := fun _ => ⟨slot, length⟩
    idle := fun idle => nomatch running.symm.trans idle }

/-! ## Every step -/

/-- A recorded error keeps the invariant. -/
theorem BlockInv.raiseError {s : State} (inv : BlockInv s) {c : Cause} {r : BitVec 2} (a : Addr)
    (reason : c ≠ .cfgErr → r = 0) : BlockInv ((s.raiseError c r a).respond 0) :=
  (inv.withErrors (inv.errors.raise a reason)).withRdata 0

/-- Every row that answers keeps the invariant. -/
theorem BlockInv.exec {i : Instr} {s t : State} (inv : BlockInv s) (h : Machine.exec i s = .next t) : BlockInv t := by
  cases exec_effect h
  case responded v eq _ _ _ => exact eq ▸ inv.withRdata v
  case failed c r eq reason _ _ _ => exact eq ▸ inv.raiseError i.addr reason
  case cleared m _ eq => exact eq ▸ (inv.withErrors (inv.errors.clear m)).withRdata 0
  case wroteMsgLen v _ free eq => exact eq ▸ (inv.withMsgLen free v).withRdata 0
  case wroteCell n byte _ _ inside eq => exact eq ▸ (inv.withCell inside byte).withRdata 0
  case started _ accepted eq => exact eq ▸ (inv.started accepted).withRdata 0
  case stopped _ running eq => exact eq ▸ (inv.ended running).withRdata 0
  case ended _ running _ _ eq => exact eq ▸ (inv.ended running).withRdata eosResponse
  case sampled _ running bit framed w _ eq =>
    have before := slot_lt_of_frame (inv.preSlots_le running) framed
    exact eq ▸ (inv.sampled before running (s.stepFor bit)).withRdata (sampleResponse w)
  all_goals
    subst t
    exact inv.unmentioned ..

/-- Every transaction that answers keeps the invariant, the illegal ones included. -/
theorem BlockInv.perform {x : Txn} {s t : State} (inv : BlockInv s) (h : Machine.perform x s = .next t) :
    BlockInv t := by
  obtain ⟨i, -, row⟩ | ⟨e, -, illegal⟩ := perform_cases x s
  · exact inv.exec (row.symm.trans h)
  · cases illegal.symm.trans h
    exact inv.raiseError _ fun _ => rfl

/-- The reset state of a legal build has the invariant, whatever is pending. -/
theorem BlockInv.resetOf {b : Build} (legal : b.legal = true) : BlockInv (State.resetOf b) where
  build_legal := legal
  msg_wf := Memory.wf_nil
  msg_below := Memory.below_nil b.msgCap
  phase_lt := Build.M_pos legal
  step0_lt := Build.M_pos legal
  step1_lt := Build.M_pos legal
  timeline active := absurd rfl active
  running := nofun
  idle _ := ⟨rfl, rfl, rfl, rfl, rfl, rfl, rfl⟩
  err_reserved := ErrorsInv.zero.flags
  info_reserved := ErrorsInv.zero.reserved
  info_cause := ErrorsInv.zero.cause
  info_valid := ErrorsInv.zero.valid

/-- Settles O31: the reset state of every legal build, and State.reset's build is legal. -/
theorem invariantAtReset : Obligations.InvariantAtReset :=
  ⟨fun _ legal => .resetOf legal, .resetOf (by decide)⟩

/-- Settles O32: nothing pending keeps the state, a reset takes the reset state, and a transaction keeps the invariant. -/
theorem stepKeepsTheInvariant : Obligations.StepKeepsTheInvariant := by
  intro s t inv h
  obtain ⟨legal, ⟨-, rfl⟩ | ⟨rest, -, rfl⟩ | ⟨x, rest, -, performed⟩⟩ := step_cases h
  · exact inv
  · exact (BlockInv.resetOf legal).withPort rest
  · exact (inv.withPort rest).perform performed

/-- Settles O30: each register of the reset state by definition, and no cell of an empty RAM reads. -/
theorem resetStateHoldsTheResetValues : Obligations.ResetStateHoldsTheResetValues := by
  refine ⟨⟨Config.resetBuild, rfl⟩, fun b => ?_⟩
  exact ⟨rfl, rfl, rfl, rfl, rfl, rfl, rfl, rfl, rfl, rfl, rfl, rfl, rfl, rfl, rfl, rfl, rfl, rfl, rfl, rfl,
    Memory.read_nil⟩

end Sys2Proof.Machine
end

section
/-! Proofs of 30_encoding.md: the round trip of X (R81, R86, R90), the opcode map (R88) and the pseudo-instructions (R94). -/

namespace Sys2Proof.Machine

/-! ## Decoding an encoded word -/

/-- A field of WDATA's low bits is read back from its zero extension. -/
theorem lowBits_of_setWidth {k : Nat} (hk : k ≤ 32) (v : BitVec k) : (v.setWidth 32).extractLsb' 0 k = v := by
  apply BitVec.eq_of_getLsbD_eq
  intro b hb
  have inWord : b < 32 := Nat.lt_of_lt_of_le hb hk
  simp [hb, inWord]

/-- The word of every row decodes to it: a window row by its index, WR_ERR by its mask, every other row by its register. -/
theorem decode_encode (i : Instr) : decode (encode i) = .instr i := by
  cases i
  case rdMsg n => exact (decode_mkTxn ..).trans (decodeFields_msgAddr false n 0)
  case wrMsg n byte => exact decode_encode_wrMsg n byte
  case rdLut n => exact (decode_mkTxn ..).trans (decodeFields_lutAddr false n 0)
  case wrErr mask =>
    refine (decode_write_reg .err (mask.setWidth 32)).trans ?_
    rw [decodeWrite, lowBits_of_setWidth (by decide)]
  case wrFs v => exact decode_write_reg .fs v
  case wrF0 v => exact decode_write_reg .f0 v
  case wrF1 v => exact decode_write_reg .f1 v
  case wrBaud v => exact decode_write_reg .baud v
  case wrTstartMs v => exact decode_write_reg .tstartMs v
  case wrTstopMs v => exact decode_write_reg .tstopMs v
  case wrMsgLen v => exact decode_write_reg .msgLen v
  all_goals exact (decode_mkTxn ..).trans rfl

/-- Every X stands in the host's form as its own number (log entry 14). -/
theorem decodeTableWord_toNat {x : Txn} {i : Instr} (decoded : decode x = .instr i) :
    decodeTableWord 56 x.toNat = some i := by
  have bound := x.isLt
  have whole : x.toNat % 2 ^ 56 = x.toNat := Nat.mod_eq_of_lt (by omega)
  simp only [decodeTableWord, whole, bound, if_true, BitVec.ofNat_toNat, BitVec.setWidth_eq, decoded]

/-- Settles O33: the round trip on X, and on X's number. -/
theorem decodeOfEncode : Obligations.DecodeOfEncode :=
  fun i => ⟨decode_encode i, decodeTableWord_toNat (decode_encode i)⟩

/-! ## Every address, and every word that is a row (R82, R87) -/

/-- An address is misaligned, an offset outside the map, a register's, a message cell's or a table word's. -/
theorem addr_cases (a : Addr) :
    a.toNat % 4 ≠ 0 ∨
    (a.toNat % 4 = 0 ∧ a.toNat < 0x4000 ∧ a.toNat ∉ Reg.all.map (fun r => r.offset.toNat)) ∨
    (∃ r : Reg, r.addr = a) ∨ (∃ n, msgAddr n = a) ∨ (∃ n, lutAddr n = a) := by
  by_cases aligned : a.toNat % 4 = 0
  · by_cases block : a.toNat < 0x4000
    · by_cases listed : a.toNat ∈ Reg.all.map (fun r => r.offset.toNat)
      · obtain ⟨r, -, offset⟩ := List.mem_map.mp listed
        exact .inr (.inr (.inl ⟨r, BitVec.eq_of_toNat_eq ((Reg.addr_toNat r).trans offset)⟩))
      · exact .inr (.inl ⟨aligned, block, listed⟩)
    · by_cases window : a.toNat < 0x8000
      · exact .inr (.inr (.inr (.inl (exists_msgAddr aligned (Nat.le_of_not_lt block) window))))
      · exact .inr (.inr (.inr (.inr (exists_lutAddr aligned (Nat.le_of_not_lt window)))))
  · exact .inl aligned

/-- How the fields of a word make it the row `i`. -/
inductive RowFields (we : Bool) (a : Addr) (d : Word) (i : Instr) : Prop
  | readReg (r : Reg) (read : we = false) (addr : a = r.addr) (row : i = decodeRead r)
  | writeReg (r : Reg) (write : we = true) (addr : a = r.addr) (row : decodeWrite d r = .instr i)
  | readCell (n : BitVec 12) (read : we = false) (addr : a = msgAddr n) (row : i = .rdMsg n)
  | writeCell (n : BitVec 12) (write : we = true) (addr : a = msgAddr n) (row : i = .wrMsg n (d.extractLsb' 0 8))
  | readTable (n : BitVec 13) (read : we = false) (addr : a = lutAddr n) (row : i = .rdLut n)

/-- A word that decodes is a row in one of the five ways. -/
theorem rowFields_of_decodeFields {we : Bool} {a : Addr} {d : Word} {i : Instr} (h : decodeFields we a d = .instr i) :
    RowFields we a d i := by
  obtain misaligned | ⟨aligned, block, unlisted⟩ | ⟨r, rfl⟩ | ⟨n, rfl⟩ | ⟨n, rfl⟩ := addr_cases a
  · cases (decodeFields_misaligned misaligned we d).symm.trans h
  · cases (decodeFields_unmappedOffset aligned block unlisted we d).symm.trans h
  · rw [decodeFields_reg] at h
    cases we
    · exact .readReg r rfl rfl (Decoded.instr.inj h).symm
    · exact .writeReg r rfl rfl h
  · rw [decodeFields_msgAddr] at h
    cases we
    · exact .readCell n rfl rfl (Decoded.instr.inj h).symm
    · exact .writeCell n rfl rfl (Decoded.instr.inj h).symm
  · rw [decodeFields_lutAddr] at h
    cases we
    · exact .readTable n rfl rfl (Decoded.instr.inj h).symm
    · cases h

/-! ## Encoding a decoded word: the bits of WDATA that a row reads (R90) -/

theorem and_allBits (d : Word) : d &&& 0xFFFFFFFF = d := BitVec.and_allOnes

theorem and_allAddrBits (a : Addr) : a &&& 0xFFFF = a := BitVec.and_allOnes

theorem and_noBits (d : Word) : d &&& 0 = 0 := BitVec.and_zero

/-- The low bits of WDATA that a row keeps, zero-extended. -/
theorem lowBits_setWidth (d : Word) (k : Nat) :
    (d.extractLsb' 0 k).setWidth 32 = d &&& (BitVec.allOnes k).setWidth 32 := by
  apply BitVec.eq_of_getLsbD_eq
  intro b hb
  by_cases low : b < k <;> simp [hb, low]

/-- Words that agree under the mask of the low bits have them in common. -/
theorem lowBits_congr {d d' : Word} {k : Nat} (hk : k ≤ 32)
    (same : d' &&& (BitVec.allOnes k).setWidth 32 = d &&& (BitVec.allOnes k).setWidth 32) :
    d'.extractLsb' 0 k = d.extractLsb' 0 k := by
  rw [← lowBits_setWidth, ← lowBits_setWidth] at same
  rw [← lowBits_of_setWidth hk (d'.extractLsb' 0 k), same, lowBits_of_setWidth hk]

/-- What the row `i` keeps of WDATA `d`: its encoding holds exactly the bits under its mask, and they alone select it. -/
structure KeepsData (we : Bool) (a : Addr) (d : Word) (i : Instr) : Prop where
  write : i.isWrite = we
  data : i.data = d &&& dataMask i
  alike : ∀ d', d' &&& dataMask i = d &&& dataMask i → decodeFields we a d' = .instr i

/-- A read's encoding has no data, and it reads none. -/
theorem data_of_read {i : Instr} (read : i.isWrite = false) : i.data = 0 ∧ dataMask i = 0 := by
  cases i <;> simp_all [Instr.isWrite, Instr.data, dataMask]

/-- A read ignores WDATA. -/
theorem KeepsData.ofRead {a : Addr} {d : Word} {i : Instr} (read : i.isWrite = false)
    (decoded : ∀ d, decodeFields false a d = .instr i) : KeepsData false a d i where
  write := read
  data := by
    obtain ⟨noData, noMask⟩ := data_of_read read
    rw [noData, noMask, and_noBits]
  alike d' _ := decoded d'

/-- A row whose encoding is all of WDATA. -/
theorem KeepsData.ofWhole {a : Addr} {d : Word} {i : Instr} (write : i.isWrite = true) (data : i.data = d)
    (mask : dataMask i = 0xFFFFFFFF) (decoded : decodeFields true a d = .instr i) : KeepsData true a d i where
  write := write
  data := by rw [mask, and_allBits, data]
  alike d' same := by
    rw [mask, and_allBits, and_allBits] at same
    rw [same, decoded]

/-- A word of the command port that is a row is 0, 1 or 2, the encoding of its command (R83). -/
theorem data_of_decodeCommand {d : Word} {i : Instr} (h : decodeCommand d = .instr i) :
    i.isWrite = true ∧ i.data = d ∧ dataMask i = 0xFFFFFFFF := by
  unfold decodeCommand at h
  split at h
  · cases h
  rename_i reserved
  have high := (extractLsb'_eq_zero_iff d 4 28).mp (Classical.not_not.mp reserved)
  have word (c : BitVec 4) (opcode : d.extractLsb' 0 4 = c) : d = c.setWidth 32 := by
    have low := congrArg BitVec.toNat opcode
    have bound := d.isLt
    rw [extractLsb'_toNat] at low
    apply BitVec.eq_of_toNat_eq
    rw [BitVec.toNat_setWidth]
    omega
  split at h
  · cases h
    exact ⟨rfl, (word 0 ‹_›).symm, rfl⟩
  split at h
  · cases h
    exact ⟨rfl, (word 1 ‹_›).symm, rfl⟩
  split at h
  · cases h
    exact ⟨rfl, (word 2 ‹_›).symm, rfl⟩
  · cases h

/-- A register write keeps the flags' mask of WR_ERR and all of every other WDATA. -/
theorem KeepsData.ofWriteReg {r : Reg} {d : Word} {i : Instr} (h : decodeWrite d r = .instr i) :
    KeepsData true r.addr d i := by
  have decoded (d : Word) : decodeFields true r.addr d = decodeWrite d r := decodeFields_reg true r d
  cases r
  case cmd =>
    obtain ⟨write, data, mask⟩ := data_of_decodeCommand h
    exact .ofWhole write data mask ((decoded d).trans h)
  case err =>
    cases h
    refine ⟨rfl, lowBits_setWidth d 6, fun d' same => ?_⟩
    rw [decoded, decodeWrite, lowBits_congr (by decide) same]
  case fs | f0 | f1 | baud | tstartMs | tstopMs | msgLen =>
    cases h
    exact .ofWhole rfl rfl rfl (decoded d)
  all_goals cases h

/-- WR_MSG keeps the low byte. -/
theorem KeepsData.ofWriteCell (n : BitVec 12) (d : Word) :
    KeepsData true (msgAddr n) d (.wrMsg n (d.extractLsb' 0 8)) := by
  refine ⟨rfl, lowBits_setWidth d 8, fun d' same => ?_⟩
  rw [decodeFields_msgAddr, lowBits_congr (by decide) same]
  rfl

theorem isWrite_decodeRead (r : Reg) : (decodeRead r).isWrite = false := by
  cases r <;> rfl

theorem keepsData_of_decodeFields {we : Bool} {a : Addr} {d : Word} {i : Instr}
    (h : decodeFields we a d = .instr i) : KeepsData we a d i := by
  cases rowFields_of_decodeFields h with
  | readReg r read addr row =>
    subst read addr row
    exact .ofRead (isWrite_decodeRead r) (decodeFields_reg false r)
  | writeReg r write addr row =>
    subst write addr
    exact .ofWriteReg row
  | readCell n read addr row =>
    subst read addr row
    exact .ofRead rfl (decodeFields_msgAddr false n)
  | writeCell n write addr row =>
    subst write addr row
    exact .ofWriteCell n d
  | readTable n read addr row =>
    subst read addr row
    exact .ofRead rfl (decodeFields_lutAddr false n)

/-- Settles O34: WE and ADDR are the row's own, and of WDATA the row keeps the bits under its mask. -/
theorem encodeOfDecoded : Obligations.EncodeOfDecoded := by
  intro x i decoded
  obtain ⟨write, data, alike⟩ := keepsData_of_decodeFields decoded
  refine ⟨?_, fun d same => (decode_mkTxn ..).trans (alike d same)⟩
  rw [encode, write, addr_of_decode decoded, data]

/-! ## The opcode map as a table of masks (R88) -/

/-- A mask cuts each field of X by itself. -/
theorem mkTxn_and (we we' : Bool) (a a' : Addr) (d d' : Word) :
    mkTxn we a d &&& mkTxn we' a' d' = mkTxn (we && we') (a &&& a') (d &&& d') := by
  show (BitVec.ofBool we ++ a ++ d) &&& (BitVec.ofBool we' ++ a' ++ d') = BitVec.ofBool (we && we') ++ _ ++ _
  rw [BitVec.and_append, BitVec.and_append, BitVec.ofBool_and_ofBool]

theorem mkTxn_inj {we we' : Bool} {a a' : Addr} {d d' : Word} (h : mkTxn we a d = mkTxn we' a' d') :
    we = we' ∧ a = a' ∧ d = d' := by
  refine ⟨?_, ?_, ?_⟩
  · rw [← txnWe_mkTxn we a d, h, txnWe_mkTxn]
  · rw [← txnAddr_mkTxn we a d, h, txnAddr_mkTxn]
  · rw [← txnData_mkTxn we a d, h, txnData_mkTxn]

/-- The bits of ADDR that fix the row: all of them but a window's index. -/
def rowAddrMask : Instr → Addr
  | .rdMsg _ | .wrMsg _ _ => 0xC003
  | .rdLut _ => 0x8003
  | _ => 0xFFFF

/-- The bits of WDATA that fix the row: all of them for a command, else none. -/
def rowDataMask : Instr → Word
  | .cmdNop | .cmdStart | .cmdStop => 0xFFFFFFFF
  | _ => 0

/-- The row of the table that the instruction belongs to, from its encoding. -/
def tableRow (i : Instr) : TableRow where
  row := rowOf i
  pattern := mkTxn i.isWrite (i.addr &&& rowAddrMask i) (i.data &&& rowDataMask i)
  mask := mkTxn true (rowAddrMask i) (rowDataMask i)

/-- One instruction of each row, in the table's order. -/
def rowSamples : List Instr :=
  [.rdId, .rdStatus, .rdErr, .wrErr 0, .rdErrInfo, .rdCmd, .cmdNop, .cmdStart, .cmdStop, .rdFs, .wrFs 0, .rdF0, .wrF0 0,
   .rdF1, .wrF1 0, .rdBaud, .wrBaud 0, .rdTstartMs, .wrTstartMs 0, .rdTstopMs, .wrTstopMs 0, .rdMsgLen, .wrMsgLen 0,
   .rdLutLen, .rdMsgCap, .rdPreSlots, .rdPostSlots, .rdEndSlot, .rdStep0, .rdStep1, .rdSlot, .rdPhase, .pull, .rdMsg 0,
   .wrMsg 0 0, .rdLut 0]

theorem opcodeTable_eq : opcodeTable = rowSamples.map tableRow := by
  decide

theorem msgAddr_and_mask (n : BitVec 12) : msgAddr n &&& 0xC003 = 0x4000 := by
  show (1#2 ++ n ++ 0#2) &&& (3#2 ++ 0#12 ++ 3#2) = _
  rw [BitVec.and_append, BitVec.and_append, BitVec.and_zero]
  rfl

theorem lutAddr_and_mask (n : BitVec 13) : lutAddr n &&& 0x8003 = 0x8000 := by
  show (1#1 ++ n ++ 0#2) &&& (1#1 ++ 0#13 ++ 3#2) = _
  rw [BitVec.and_append, BitVec.and_append, BitVec.and_zero]
  rfl

/-- A row's entry in the table does not depend on its operands. -/
theorem opcodeTable_rowOf (i : Instr) : opcodeTable[rowOf i]? = some (tableRow i) := by
  cases i
  all_goals simp only [tableRow, rowOf, Instr.isWrite, Instr.addr, Instr.data, rowAddrMask, rowDataMask, msgAddr_and_mask,
    lutAddr_and_mask, and_noBits]
  all_goals rfl

/-- Every row of the table is an instruction's. -/
theorem exists_tableRow {r : TableRow} (listed : r ∈ opcodeTable) : ∃ i, tableRow i = r := by
  rw [opcodeTable_eq] at listed
  obtain ⟨i, -, row⟩ := List.mem_map.mp listed
  exact ⟨i, row⟩

/-- Instructions of one row have one entry. -/
theorem tableRow_congr {i j : Instr} (same : rowOf i = rowOf j) : tableRow i = tableRow j := by
  have entry := opcodeTable_rowOf i
  rw [same, opcodeTable_rowOf j] at entry
  exact (Option.some.inj entry).symm

/-- A field that a mask keeps whole is told by the masked address. -/
theorem addrField_of_masked {a b m : Addr} {k l : Nat} (h : a &&& m = b &&& m)
    (whole : m.extractLsb' k l = BitVec.allOnes l) : a.toNat / 2 ^ k % 2 ^ l = b.toNat / 2 ^ k % 2 ^ l := by
  have field := congrArg (fun c => c.extractLsb' k l) h
  simp only [BitVec.extractLsb'_and, whole, BitVec.and_allOnes] at field
  rw [← extractLsb'_toNat, ← extractLsb'_toNat, field]

/-- The message window by its bits 15:14 and 1:0. -/
theorem msgAddr_of_masked {a : Addr} {n : BitVec 12} (h : a &&& 0xC003 = msgAddr n &&& 0xC003) :
    ∃ m, msgAddr m = a := by
  have low := addrField_of_masked (k := 0) (l := 2) h (by decide)
  have high := addrField_of_masked (k := 14) (l := 2) h (by decide)
  have bounds := And.intro a.isLt n.isLt
  rw [msgAddr_toNat] at low high
  exact exists_msgAddr (by omega) (by omega) (by omega)

/-- The table window by its bits 15 and 1:0. -/
theorem lutAddr_of_masked {a : Addr} {n : BitVec 13} (h : a &&& 0x8003 = lutAddr n &&& 0x8003) :
    ∃ m, lutAddr m = a := by
  have low := addrField_of_masked (k := 0) (l := 2) h (by decide)
  have high := addrField_of_masked (k := 15) (l := 1) h (by decide)
  have bounds := And.intro a.isLt n.isLt
  rw [lutAddr_toNat] at low high
  exact exists_lutAddr (by omega) (by omega)

/-- Fields that agree with an instruction's under its row's masks decode to an instruction of that row. -/
theorem decodeFields_of_masked {a : Addr} {d : Word} (i : Instr) (addr : a &&& rowAddrMask i = i.addr &&& rowAddrMask i)
    (data : d &&& rowDataMask i = i.data &&& rowDataMask i) :
    ∃ j, decodeFields i.isWrite a d = .instr j ∧ rowOf j = rowOf i := by
  cases i
  case rdMsg n =>
    obtain ⟨m, rfl⟩ := msgAddr_of_masked addr
    exact ⟨.rdMsg m, decodeFields_msgAddr false m d, rfl⟩
  case wrMsg n byte =>
    obtain ⟨m, rfl⟩ := msgAddr_of_masked addr
    exact ⟨.wrMsg m _, decodeFields_msgAddr true m d, rfl⟩
  case rdLut n =>
    obtain ⟨m, rfl⟩ := lutAddr_of_masked addr
    exact ⟨.rdLut m, decodeFields_lutAddr false m d, rfl⟩
  all_goals
    simp only [rowAddrMask, Instr.addr, and_allAddrBits] at addr
    subst addr
  case cmdNop | cmdStart | cmdStop =>
    simp only [rowDataMask, Instr.data, and_allBits] at data
    subst data
    exact ⟨_, rfl, rfl⟩
  all_goals exact ⟨_, decodeFields_reg _ _ d, rfl⟩

/-- A word under a row's mask, field by field. -/
theorem and_tableRow_mask (x : Txn) (i : Instr) : x &&& (tableRow i).mask =
    mkTxn (txnWe x) (txnAddr x &&& rowAddrMask i) (txnData x &&& rowDataMask i) := by
  have masked := mkTxn_and (txnWe x) true (txnAddr x) (rowAddrMask i) (txnData x) (rowDataMask i)
  rwa [mkTxn_fields, Bool.and_true] at masked

/-- What fixes a row is read by it. -/
theorem dataMask_and_rowDataMask (i : Instr) : dataMask i &&& rowDataMask i = rowDataMask i := by
  cases i <;> simp only [dataMask, rowDataMask, and_allBits, and_noBits]

/-- A word that decodes to an instruction has the pattern of its row. -/
theorem and_tableRow_mask_of_decode {x : Txn} {i : Instr} (decoded : decode x = .instr i) :
    x &&& (tableRow i).mask = (tableRow i).pattern := by
  obtain ⟨write, data, -⟩ := keepsData_of_decodeFields decoded
  have kept : i.data &&& rowDataMask i = txnData x &&& rowDataMask i := by
    rw [data, BitVec.and_assoc, dataMask_and_rowDataMask]
  rw [and_tableRow_mask, tableRow, write, addr_of_decode decoded, kept]

/-- Settles O35: agreeing with a row under its mask is agreeing field by field with an instruction of the row, and a
decoded word agrees so with the instruction that it decodes to. -/
theorem decoderIsTheOpcodeTable : Obligations.DecoderIsTheOpcodeTable := by
  intro x r listed
  obtain ⟨i, rfl⟩ := exists_tableRow listed
  constructor
  · intro masked
    obtain ⟨write, addr, data⟩ := mkTxn_inj ((and_tableRow_mask x i).symm.trans masked)
    obtain ⟨j, decoded, row⟩ := decodeFields_of_masked i addr data
    rw [← write] at decoded
    exact ⟨j, decoded, row⟩
  · rintro ⟨j, decoded, row⟩
    rw [← tableRow_congr row]
    exact and_tableRow_mask_of_decode decoded

/-- Settles O36: each word by evaluating the decoder on it. -/
theorem writtenOutWordsDecode : Obligations.WrittenOutWordsDecode := by
  unfold Obligations.WrittenOutWordsDecode
  decide

/-! ## The assembler's lines (R93, R94) -/

/-- An assembled register write decodes to the register's write row. -/
theorem asmWrite_eq_some {r : Reg} {imm : Nat} {x : Txn} (h : asmWrite r imm = some x) :
    decode x = decodeWrite (BitVec.ofNat 32 imm) r := by
  unfold asmWrite at h
  split at h
  · cases h
    exact decode_write_reg r _
  · cases h

/-- A register write of a 32-bit value assembles. -/
theorem asmWrite_word (r : Reg) (v : Word) : asmWrite r v.toNat = some (mkTxn true r.addr v) := by
  rw [asmWrite, if_pos v.isLt, BitVec.ofNat_toNat, BitVec.setWidth_eq]

/-- Two words assemble exactly if each does. -/
theorem asmAll_pair_eq_some {o o' : Option Txn} {ys : List Txn} :
    asmAll [o, o'] = some ys ↔ ∃ x y, o = some x ∧ o' = some y ∧ ys = [x, y] := by
  cases o <;> cases o' <;> simp [asmAll, eq_comm]

/-- LOADMSG assembles exactly if its text, its terminator and its length do, and is their words in that order. -/
theorem assemble_loadMsg_eq_some {b : Build} {text : List Char} {xs : List Txn} :
    assemble b (.loadMsg text) = some xs ↔
      ∃ cells terminator len, asmText b 0 text = some cells ∧ asmWriteMsg b text.length 0 = some terminator ∧
        asmWrite .msgLen (text.length + 1) = some len ∧ xs = cells ++ [terminator, len] := by
  constructor
  · intro h
    simp only [assemble] at h
    split at h
    · rename_i cells ys text_eq pair_eq
      obtain ⟨terminator, len, terminator_eq, len_eq, rfl⟩ := asmAll_pair_eq_some.mp pair_eq
      exact ⟨cells, terminator, len, text_eq, terminator_eq, len_eq, (Option.some.inj h).symm⟩
    · cases h
  · rintro ⟨cells, terminator, len, text_eq, terminator_eq, len_eq, rfl⟩
    have pair := asmAll_pair_eq_some.mpr ⟨terminator, len, terminator_eq, len_eq, rfl⟩
    simp only [assemble, text_eq, pair]

/-- ASCII text that fits the RAM with its terminator assembles. -/
theorem assemble_loadMsg_isSome {b : Build} {text : List Char} (legal : b.legal = true)
    (ascii : ∀ c ∈ text, c.toNat < 128) (fits : text.length + 1 ≤ b.msgCap) :
    ∃ xs, assemble b (.loadMsg text) = some xs := by
  have cap := Build.cap_le legal
  obtain ⟨cells, text_eq⟩ := asmText_isSome cap text 0 ascii (by omega)
  exact ⟨_, assemble_loadMsg_eq_some.mpr ⟨cells, _, _, text_eq, if_pos (by omega), if_pos (by omega), rfl⟩⟩

/-- Settles O53: LOADMSG by its three parts, and each other line by the words it is made of. -/
theorem pseudoInstructionsExpand : Obligations.PseudoInstructionsExpand := by
  refine ⟨fun b text legal ascii fits => assemble_loadMsg_isSome legal ascii fits, fun b text xs h => ?loadMsg,
    fun b => rfl, fun b c => ?pullN, fun b fs f0 f1 baud t1 t2 => ?config⟩
  case loadMsg =>
    obtain ⟨cells, terminator, len, text_eq, terminator_eq, len_eq, rfl⟩ := assemble_loadMsg_eq_some.mp h
    obtain ⟨ascii, length, cell⟩ := asmText_eq_some text_eq
    obtain ⟨inside, -, -, decoded⟩ := asmWriteMsg_eq_some terminator_eq
    refine ⟨ascii, inside, by simp [length], fun j c hc => ?_, ⟨terminator, by simp [← length], decoded⟩,
      ⟨len, by simp [← length], asmWrite_eq_some len_eq⟩⟩
    obtain ⟨x, word, row⟩ := cell j c hc
    rw [Nat.zero_add] at row
    exact ⟨x, (List.getElem?_append_left (List.getElem?_eq_some_iff.mp word).1).trans word, row⟩
  case pullN =>
    simp only [assemble, Option.map_some, List.map_replicate, decode_encode]
  case config =>
    simp only [assemble, asmAll, asmWrite_word, Option.map_some, List.map_cons, List.map_nil, decode_write_reg, decodeWrite]

end Sys2Proof.Machine
end

section
/-! Proofs of 40_register_access.md: the locked writes (R101, R109 to R121, R132), the stream registers (R124 to R130), and
that a read has no side effect (R100). -/

namespace Sys2Proof.Machine

/-! ## The stream registers (R124 to R130) -/

/-- Settles O6: each of the seven rows answers its own register, and each register is on R89's list of read-only ones. -/
theorem streamRegisterReads : Obligations.StreamRegisterReads :=
  ⟨⟨readsAs_reg .preSlots fun _ => rfl, writeRefused_readOnlyRegs (r := .preSlots) (by decide)⟩,
    ⟨readsAs_reg .postSlots fun _ => rfl, writeRefused_readOnlyRegs (r := .postSlots) (by decide)⟩,
    ⟨readsAs_reg .endSlot fun _ => rfl, writeRefused_readOnlyRegs (r := .endSlot) (by decide)⟩,
    ⟨readsAs_reg .step0 fun _ => rfl, writeRefused_readOnlyRegs (r := .step0) (by decide)⟩,
    ⟨readsAs_reg .step1 fun _ => rfl, writeRefused_readOnlyRegs (r := .step1) (by decide)⟩,
    ⟨readsAs_reg .slot fun _ => rfl, writeRefused_readOnlyRegs (r := .slot) (by decide)⟩,
    ⟨readsAs_reg .phase fun _ => rfl, writeRefused_readOnlyRegs (r := .phase) (by decide)⟩⟩

/-! ## The locked writes (R101) -/

/-- In RUN a locked write records LOCK_ERR and nothing else. -/
theorem lockedWrite_running {a : Addr} {s s' : State} (running : s.stream = .run) :
    lockedWrite a s s' = .next (errorRecorded s 2 0 a.toNat) :=
  (lockedWrite_run running).trans (failWith_eq_errorRecorded s .lockErr 0 a)

/-- A register whose write row is a locked write of `target` is locked at its own address. -/
theorem lockedRegister_reg (r : Reg) {row : Word → Instr} {target : State → Word → State}
    (decoded : ∀ d, decodeWrite d r = .instr (row d))
    (locked : ∀ d s, exec (row d) s = lockedWrite r.addr s (target s d)) :
    LockedRegister r.addr.toNat row target := by
  intro d s
  rw [BitVec.ofNat_toNat, BitVec.setWidth_eq, locked]
  exact ⟨(decode_write_reg r d).trans (decoded d), lockedWrite_running,
    fun free => (lockedWrite_free free).trans (written_eq _)⟩

/-- Settles O7: each of the seven rows is a locked write of its own register. -/
theorem configurationWritesAreLocked : Obligations.ConfigurationWritesAreLocked :=
  ⟨lockedRegister_reg .fs (fun _ => rfl) fun _ _ => rfl, lockedRegister_reg .f0 (fun _ => rfl) fun _ _ => rfl,
    lockedRegister_reg .f1 (fun _ => rfl) fun _ _ => rfl, lockedRegister_reg .baud (fun _ => rfl) fun _ _ => rfl,
    lockedRegister_reg .tstartMs (fun _ => rfl) fun _ _ => rfl,
    lockedRegister_reg .tstopMs (fun _ => rfl) fun _ _ => rfl,
    lockedRegister_reg .msgLen (fun _ => rfl) fun _ _ => rfl⟩

/-! ## WR_MSG (R132) -/

/-- Below MSG_CAP WR_MSG is a locked write of its cell. -/
theorem exec_wrMsg_inside {n : BitVec 12} {s : State} (inside : n.toNat < s.build.msgCap) (byte : Byte) :
    exec (.wrMsg n byte) s = lockedWrite (msgAddr n) s { s with msg := s.msg.write n.toNat byte } :=
  if_pos inside

/-- The byte is WDATA[7:0], by its number. -/
theorem byte_eq_ofNat (d : Word) : d.extractLsb' 0 8 = BitVec.ofNat 8 (d.toNat % 256) := by
  apply BitVec.eq_of_toNat_eq
  rw [extractLsb'_toNat, BitVec.toNat_ofNat]
  omega

/-- Settles O9: the address is message cell n's, and below MSG_CAP the write is locked. -/
theorem messageWriteRow : Obligations.MessageWriteRow := by
  intro n d byte s
  rw [ofNat_eq_msgAddr, ← msgAddr_toNat, decode_mkTxn, ← byte_eq_ofNat]
  refine ⟨decodeFields_msgAddr true n d, fun inside running => ?locked, fun inside free => ?written,
    fun outside => exec_wrMsg_outside outside byte⟩
  case locked => rw [exec_wrMsg_inside inside, lockedWrite_running running]
  case written =>
    refine ⟨s.msg.write n.toNat byte, ?_, Memory.read_write_same .., fun k other => Memory.read_write_other _ _ other⟩
    rw [exec_wrMsg_inside inside, lockedWrite_free free, written_eq]

/-! ## Reads (R100; 20_memory.md R66) -/

/-- A register's read, SAMPLE's excepted, is an answer. -/
theorem exec_readReg {r : Reg} (notSample : r ≠ .sample) (s : State) : ∃ v, exec (decodeRead r) s = answer v s := by
  cases r
  case sample => exact absurd rfl notSample
  all_goals exact ⟨_, rfl⟩

/-- RD_MSG answers below MSG_CAP, if it does not stop, and is ADDR_ERR past it. -/
theorem exec_rdMsg_cases {n : BitVec 12} {s t : State} (h : exec (.rdMsg n) s = .next t) :
    (∃ v, t = s.respond v) ∨ t = errorRecorded s 0 0 (msgAddr n).toNat := by
  by_cases inside : n.toNat < s.build.msgCap
  · cases cell : s.msg.read n.toNat with
    | none => cases (exec_rdMsg_unwritten inside cell).symm.trans h
    | some v => exact .inl ⟨_, Host.Outcome.next.inj (h.symm.trans (exec_rdMsg_written inside cell))⟩
  · exact .inr (Host.Outcome.next.inj (h.symm.trans (exec_rdMsg_outside (Nat.le_of_not_lt inside))))

/-- RD_LUT answers below T and is ADDR_ERR past it. -/
theorem exec_rdLut_cases {n : BitVec 13} {s t : State} (h : exec (.rdLut n) s = .next t) :
    (∃ v, t = s.respond v) ∨ t = errorRecorded s 0 0 (lutAddr n).toNat := by
  cases entry : lutRead s.build n.toNat with
  | none => exact .inr (Host.Outcome.next.inj (h.symm.trans (exec_rdLut_outside (lutRead_eq_none.mp entry))))
  | some w => exact .inl ⟨_, Host.Outcome.next.inj (h.symm.trans (exec_rdLut_mapped entry))⟩

/-- A read that is no row is misaligned or outside the map (30_encoding.md R89). -/
theorem illegalCause_of_read {a : Addr} {d : Word} {e : IllegalAccess} (h : decodeFields false a d = .illegal e)
    (b : Build) : illegalCause b e = .addrErr := by
  obtain misaligned | ⟨aligned, block, unlisted⟩ | ⟨r, rfl⟩ | ⟨n, rfl⟩ | ⟨n, rfl⟩ := addr_cases a
  · cases (decodeFields_misaligned misaligned false d).symm.trans h
    rfl
  · cases (decodeFields_unmappedOffset aligned block unlisted false d).symm.trans h
    rfl
  · cases (decodeFields_reg false r d).symm.trans h
  · cases (decodeFields_msgAddr false n d).symm.trans h
  · cases (decodeFields_lutAddr false n d).symm.trans h

/-- Settles O44: a register's read answers, a window's read answers or is ADDR_ERR, and a read that is no row is ADDR_ERR. -/
theorem readsHaveNoSideEffect : Obligations.ReadsHaveNoSideEffect := by
  intro a d s t notSample h
  cases decoded : decodeFields false a d with
  | illegal e =>
    rw [perform_illegal decoded, illegalCause_of_read decoded] at h
    exact .inr (Host.Outcome.next.inj h).symm
  | instr i =>
    rw [perform_row decoded] at h
    suffices effect : (∃ v, t = s.respond v) ∨ t = errorRecorded s 0 0 a.toNat by
      obtain ⟨v, rfl⟩ | recorded := effect
      · exact .inl rfl
      · exact .inr recorded
    cases rowFields_of_decodeFields decoded with
    | writeReg r write => cases write
    | writeCell n write => cases write
    | readReg r _ addr row =>
      subst addr row
      obtain ⟨v, answers⟩ := exec_readReg (r := r) (fun sample => notSample (sample ▸ rfl)) s
      exact .inl ⟨v, Host.Outcome.next.inj (h.symm.trans answers)⟩
    | readCell n _ addr row =>
      subst addr row
      exact exec_rdMsg_cases h
    | readTable n _ addr row =>
      subst addr row
      exact exec_rdLut_cases h

end Sys2Proof.Machine
end

section
/-! Proofs of 10_state.md: which transaction may change which part of the state (R23 to R29, R34), and the flags' record. -/

namespace Sys2Proof.Machine

/-! ## The frame of a row, component by component -/

/-- Settles O37: of all effects only the seven register writes touch a configuration register, each its own. -/
theorem onlyItsOwnWriteChangesAConfigurationRegister : Obligations.OnlyItsOwnWriteChangesAConfigurationRegister := by
  intro i s t h
  cases exec_effect h
  case wroteFs v row free eq | wroteF0 v row free eq | wroteF1 v row free eq | wroteBaud v row free eq
      | wroteTstartMs v row free eq | wroteTstopMs v row free eq | wroteMsgLen v row free eq =>
    subst eq
    simp [row, free]
  all_goals
    subst t
    simp

theorem SameConstants.refl (s : State) : SameConstants s s := ⟨rfl, rfl, rfl, rfl, rfl⟩

/-- No effect but an accepted START writes a stream constant. -/
theorem exec_sameConstants {i : Instr} {s t : State} (h : exec i s = .next t)
    (notStarted : ¬ (i = .cmdStart ∧ StartAccepted s)) : SameConstants s t := by
  cases exec_effect h
  case started row accepted _ => exact absurd ⟨row, accepted⟩ notStarted
  all_goals
    subst t
    exact ⟨rfl, rfl, rfl, rfl, rfl⟩

/-- Settles O38: a row by its effects, and an illegal transaction by its record. -/
theorem onlyAnAcceptedStartChangesTheStreamConstants : Obligations.OnlyAnAcceptedStartChangesTheStreamConstants := by
  refine ⟨fun i s t h notStarted => exec_sameConstants h notStarted, fun x e s t illegal h => ?_⟩
  simp only [perform, illegal] at h
  cases h
  exact ⟨rfl, rfl, rfl, rfl, rfl⟩

/-- Settles O39: START zeroes the counters, a sample moves them, and no other effect does. -/
theorem onlyStartAndPullMoveTheCounters : Obligations.OnlyStartAndPullMoveTheCounters := by
  intro i s t legal h moved
  cases exec_effect h
  case started row accepted eq =>
    subst eq
    exact .inl ⟨row, accepted, rfl, rfl⟩
  case sampled row running bit _ w _ eq =>
    subst eq
    refine .inr ⟨row, running, running, rfl, ?_⟩
    have phase := toNat_nextPhase legal s.phase (s.stepFor bit)
    cases bit
    · exact .inl phase
    · exact .inr phase
  all_goals
    subst t
    exact absurd moved (by simp)

/-- No row touches the build or the port (log entries 1, 2). -/
theorem exec_build_port {i : Instr} {s t : State} (h : exec i s = .next t) : t.build = s.build ∧ t.port = s.port := by
  cases exec_effect h
  all_goals
    subst t
    exact ⟨rfl, rfl⟩

/-- A cell reads differently only after a WR_MSG of it, below MSG_CAP and outside RUN. -/
theorem exec_cell_changed {i : Instr} {s t : State} (h : exec i s = .next t) {k : Nat}
    (changed : t.msg.read k ≠ s.msg.read k) :
    ∃ (n : BitVec 12) (byte : Byte), i = .wrMsg n byte ∧ k = n.toNat ∧ n.toNat < s.build.msgCap ∧
      s.stream ≠ .run ∧ t.msg.read k = some byte := by
  cases exec_effect h
  case wroteCell n byte row free inside eq =>
    subst eq
    have cell : k = n.toNat :=
      Decidable.byContradiction fun other => changed (Memory.read_write_other s.msg byte other)
    subst cell
    exact ⟨n, byte, row, rfl, inside, free, Memory.read_write_same ..⟩
  all_goals
    subst t
    exact absurd rfl changed

/-- Settles O40: the build and the port by one lemma, a changed cell by the other. -/
theorem onlyAMessageWriteChangesACell : Obligations.OnlyAMessageWriteChangesACell := by
  intro i s t h
  obtain ⟨build, port⟩ := exec_build_port h
  exact ⟨build, port, fun _ changed => exec_cell_changed h changed⟩

/-! ## The error record of a transaction (60_exceptions.md R220 to R223) -/

/-- What a transaction that completes does to ERR and ERR_INFO: it raises one error and does nothing else, or it leaves
ERR_INFO and clears the flags of WR_ERR's mask, or it leaves both. -/
inductive ErrorEffect (x : Txn) (s t : State) : Prop
  | raised (c : Cause) (r : BitVec 2) (reason : c ≠ .cfgErr → r = 0)
      (eq : t = (s.raiseError c r (txnAddr x)).respond 0)
  | cleared (m : BitVec 6) (row : decode x = .instr (.wrErr m)) (err : t.err = errClear s.err m)
      (info : t.errInfo = s.errInfo)
  | kept (err : t.err = s.err) (info : t.errInfo = s.errInfo)

theorem perform_errorEffect {x : Txn} {s t : State} (h : perform x s = .next t) : ErrorEffect x s t := by
  obtain ⟨i, decoded, row⟩ | ⟨e, -, illegal⟩ := perform_cases x s
  · cases exec_effect (row.symm.trans h)
    case failed c r eq reason _ _ _ =>
      rw [addr_of_decode decoded] at eq
      exact .raised c r reason eq
    case cleared m row eq =>
      subst eq
      exact .cleared m (decoded.trans (congrArg _ row)) rfl rfl
    all_goals
      subst t
      exact .kept rfl rfl
  · exact .raised _ 0 (fun _ => rfl) (Host.Outcome.next.inj (h.symm.trans illegal))

theorem errClear_zero (m : BitVec 6) : errClear 0 m = 0 := BitVec.zero_and

/-- A flag of the cleared ERR was set before. -/
theorem getLsbD_of_errClear {err : Word} {m : BitVec 6} {b : Nat} (set : (errClear err m).getLsbD b = true) :
    err.getLsbD b = true := by
  rw [errClear, BitVec.getLsbD_and, Bool.and_eq_true] at set
  exact set.1

theorem Cause.flag_toNat (c : Cause) : c.flag.toNat = 2 ^ c.code.toNat := by
  cases c <;> rfl

theorem Cause.flag_ne_zero (c : Cause) : c.flag ≠ 0 := by
  cases c <;> decide

/-- Settles O41: a raised error sets a flag and is captured exactly if ERR was 0; the other effects raise none. -/
theorem flagsAreStickyAndTheFirstErrorIsCaptured : Obligations.FlagsAreStickyAndTheFirstErrorIsCaptured := by
  intro x s t h
  cases perform_errorEffect h with
  | kept err info =>
    rw [err, info]
    exact ⟨fun _ _ set => set, absurd rfl, fun clear set => absurd clear set⟩
  | cleared m row err info =>
    refine ⟨fun notClear => absurd row (notClear m), fun changed => absurd info changed, fun clear set => ?_⟩
    rw [err, clear, errClear_zero] at set
    exact absurd rfl set
  | raised c r reason eq =>
    subst eq
    have flag : s.err ||| c.flag ≠ 0 := fun none => c.flag_ne_zero (BitVec.or_eq_zero_iff.mp none).2
    simp only [State.respond_err, State.respond_errInfo, State.raiseError_err, State.raiseError_errInfo]
    refine ⟨fun _ b set => by rw [BitVec.getLsbD_or, set, Bool.true_or], fun changed => ⟨?_, flag⟩, fun clear _ => ?_⟩
    · exact Decidable.byContradiction fun set => changed (if_neg set)
    · rw [if_pos clear, clear]
      refine ⟨errInfoWord_valid .., errInfoWord_addr .., ?_⟩
      rw [errInfoWord_cause, ← c.flag_toNat]
      exact congrArg BitVec.toNat BitVec.zero_or

/-- The record of an error, with its numbers in range: ECFG is 0 but for CFG_ERR. -/
theorem exists_errorRecorded_of_failWith {c : Cause} {r : BitVec 2} {a : Addr} {s t : State}
    (reason : c ≠ .cfgErr → r = 0) (h : failWith c r a s = .next t) :
    ∃ c r, c ≤ 5 ∧ r ≤ 3 ∧ (c ≠ 4 → r = 0) ∧ t = errorRecorded s c r a.toNat := by
  refine ⟨c.code.toNat, r.toNat, c.code_le, Nat.le_of_lt_succ r.isLt, fun other => ?_,
    Host.Outcome.next.inj (h.symm.trans (failWith_eq_errorRecorded s c r a))⟩
  rw [reason fun isCfg => other (isCfg ▸ rfl)]
  rfl

/-- Settles O42: WR_ERR raises nothing, every other row raises its one error whatever ERR holds or nothing, and an
illegal transaction raises its one error. -/
theorem oneErrorAndNoOtherEffect : Obligations.OneErrorAndNoOtherEffect := by
  intro x s t h
  cases decoded : decode x with
  | illegal e =>
    simp only [perform, decoded] at h
    exact .inl (exists_errorRecorded_of_failWith (fun _ => rfl) h)
  | instr i =>
    simp only [perform, decoded] at h ⊢
    by_cases clears : ∃ m, i = .wrErr m
    · obtain ⟨m, rfl⟩ := clears
      cases h
      exact .inr ⟨rfl, fun b => getLsbD_of_errClear, _, rfl, errClear_zero m⟩
    · obtain ⟨c, r, reason, raises⟩ | ⟨keeps, answers⟩ := exec_raises s (not_exists.mp clears)
      · rw [← addr_of_decode decoded]
        exact .inl (exists_errorRecorded_of_failWith reason ((raises s.err).symm.trans h))
      · obtain ⟨err, info⟩ := keeps s.err t h
        obtain ⟨u, answered⟩ := answers s.err 0 t h
        exact .inr ⟨info, fun b set => err ▸ set, u, answered, (keeps 0 u answered).1⟩

end Sys2Proof.Machine
end

section
/-! Proofs of 60_exceptions.md and 20_memory.md: where a row stops (R73, R234), which builds are refused (R234), the events
at the port (R68), and what a running stream is locked against (R70, R225). -/

namespace Sys2Proof.Machine

/-! ## Where a row stops (R234; 20_memory.md R72, R73) -/

theorem lockedWrite_answers (a : Addr) (s s' : State) : ∃ t, lockedWrite a s s' = .next t := by
  by_cases running : s.stream = .run
  · exact ⟨_, lockedWrite_running running⟩
  · exact ⟨_, lockedWrite_free running⟩

/-- Every row but RD_MSG and PULL answers in every state. -/
theorem exec_answers {i : Instr} (notRead : ∀ n, i ≠ .rdMsg n) (notPull : i ≠ .pull) (s : State) :
    ∃ t, exec i s = .next t := by
  cases i
  case rdMsg n => exact absurd rfl (notRead n)
  case pull => exact absurd rfl notPull
  case wrFs | wrF0 | wrF1 | wrBaud | wrTstartMs | wrTstopMs | wrMsgLen => exact lockedWrite_answers ..
  case wrMsg n byte =>
    by_cases inside : n.toNat < s.build.msgCap
    · rw [exec_wrMsg_inside inside]
      exact lockedWrite_answers ..
    · exact ⟨_, exec_wrMsg_outside (Nat.le_of_not_lt inside) byte⟩
  case rdLut n =>
    cases entry : lutRead s.build n.toNat with
    | none => exact ⟨_, exec_rdLut_outside (lutRead_eq_none.mp entry)⟩
    | some w => exact ⟨_, exec_rdLut_mapped entry⟩
  case cmdStart =>
    by_cases accepted : StartAccepted s
    · exact ⟨_, exec_cmdStart_accepted accepted⟩
    · obtain ⟨c, r, -, refused⟩ := execCmdStart_refused accepted
      exact ⟨_, refused⟩
  case cmdStop =>
    cases state : s.stream with
    | idle => exact ⟨_, exec_cmdStop_idle state⟩
    | run => exact ⟨_, exec_cmdStop_running state⟩
    | done => exact ⟨_, exec_cmdStop_done state⟩
  all_goals exact ⟨_, rfl⟩

/-- What `exec i s` is: an answer, the fault of the one unwritten cell that the row needs, or a refusal that no legal build
meets. -/
inductive ExecOutcome (i : Instr) (s : State) : Prop
  | answered (t : State) (eq : exec i s = .next t)
  | unwrittenCell (n : BitVec 12) (row : i = .rdMsg n) (inside : n.toNat < s.build.msgCap)
      (unwritten : s.msg.read n.toNat = none) (eq : exec i s = .fault .unwrittenMsg)
  | unwrittenSlot (b k : Nat) (row : i = .pull) (running : s.stream = .run)
      (slot : dataSlot s s.slot.toNat = some (b, k)) (unwritten : s.msg.read b = none)
      (eq : exec i s = .fault .unwrittenMsg)
  | refusedBuild (illegal : s.build.legal ≠ true) (eq : exec i s = .refused .lutIllegal)

theorem exec_rdMsg_outcome (n : BitVec 12) (s : State) : ExecOutcome (.rdMsg n) s := by
  by_cases inside : n.toNat < s.build.msgCap
  · cases cell : s.msg.read n.toNat with
    | none => exact .unwrittenCell n rfl inside cell (exec_rdMsg_unwritten inside cell)
    | some v => exact .answered _ (exec_rdMsg_written inside cell)
  · exact .answered _ (exec_rdMsg_outside (Nat.le_of_not_lt inside))

/-- A produced sample reads the table at the new phase, which is below T on every legal build (43_nco_lut.md R196). -/
theorem produceSample_outcome (bit : Bool) (s : State) :
    (∃ t, produceSample bit s = .next t) ∨ (s.build.legal ≠ true ∧ produceSample bit s = .refused .lutIllegal) := by
  by_cases legal : s.build.legal = true
  · obtain ⟨w, idx, -, -, produced⟩ := produceSample_legal legal bit
    exact .inl ⟨_, produced⟩
  · cases entry : lutRead s.build (tableIndex (nextPhase s.build s.phase (s.stepFor bit))) with
    | none => exact .inr ⟨legal, by simp only [produceSample, entry]⟩
    | some w => exact .inl ⟨_, produceSample_eq entry⟩

theorem exec_pull_outcome (s : State) : ExecOutcome .pull s := by
  cases state : s.stream with
  | idle => exact .answered _ (exec_pull_idle state)
  | done => exact .answered _ (exec_pull_done state)
  | run =>
    cases framed : frame s s.slot.toNat with
    | fault f =>
      obtain ⟨rfl, b, k, slot, unwritten⟩ := (frame_before_end s _ (frame_fault_lt framed)).2 f framed
      exact .unwrittenSlot b k rfl state slot unwritten (exec_pull_fault state framed)
    | slot bit ended =>
      cases ended with
      | true => exact .answered _ (exec_pull_end state framed)
      | false =>
        have pull := exec_pull_bit state framed
        obtain ⟨t, produced⟩ | ⟨illegal, refused⟩ := produceSample_outcome bit s
        · exact .answered t (pull.trans produced)
        · exact .refusedBuild illegal (pull.trans refused)

theorem exec_outcome (i : Instr) (s : State) : ExecOutcome i s := by
  by_cases read : ∃ n, i = .rdMsg n
  · obtain ⟨n, rfl⟩ := read
    exact exec_rdMsg_outcome n s
  · by_cases pull : i = .pull
    · subst pull
      exact exec_pull_outcome s
    · obtain ⟨t, answered⟩ := exec_answers (not_exists.mp read) pull s
      exact .answered t answered

/-- Settles O23: the two faults among the outcomes are UNWRITTEN_MSG, each with its row and its cell. -/
theorem onlyAnUnwrittenCellFaults : Obligations.OnlyAnUnwrittenCellFaults := by
  intro i s f h
  cases exec_outcome i s with
  | answered t eq => cases eq.symm.trans h
  | refusedBuild _ eq => cases eq.symm.trans h
  | unwrittenCell n row inside unwritten eq =>
    cases eq.symm.trans h
    exact ⟨rfl, .inl ⟨n, row, inside, unwritten⟩⟩
  | unwrittenSlot b k row running slot unwritten eq =>
    cases eq.symm.trans h
    exact ⟨rfl, .inr ⟨row, running, b, k, slot, unwritten⟩⟩

/-! ## The port (20_memory.md R68) -/

theorem step_idle {s : State} (legal : s.build.legal = true) (pending : s.port = []) : step s = .next s := by
  rw [step_eq_handleEvent legal, handleEvent, pending]

theorem step_txn {s : State} {x : Txn} {rest : List PortEvent} (legal : s.build.legal = true)
    (pending : s.port = .txn x :: rest) : step s = perform x { s with port := rest } := by
  rw [step_eq_handleEvent legal, handleEvent, pending]

theorem perform_of_decode {x : Txn} {i : Instr} (decoded : decode x = .instr i) (s : State) :
    perform x s = exec i s := by
  simp only [perform, decoded]

/-- Settles O27: a step of a legal build is the next event, and none is pending. -/
theorem nothingPendingChangesNothing : Obligations.NothingPendingChangesNothing :=
  fun _ legal pending => step_idle legal pending

/-- Settles O26: a pending transaction is performed, a decoded one by its row, and a word of 49 bits is its own X. -/
theorem stepRunsTheDecodedTransaction : Obligations.StepRunsTheDecodedTransaction := by
  refine ⟨fun s x rest i legal pending decoded => (step_txn legal pending).trans (perform_of_decode decoded _),
    fun s x rest legal pending => step_txn legal pending, fun s w bound => ?_⟩
  have whole : w % 2 ^ 56 = w := Nat.mod_eq_of_lt (by omega)
  rw [State.withFetchWord, wordOfBits, whole]

theorem perform_port {x : Txn} {s t : State} (h : perform x s = .next t) : t.port = s.port := by
  obtain ⟨i, -, row⟩ | ⟨e, -, illegal⟩ := perform_cases x s
  · exact (exec_build_port (row.symm.trans h)).2
  · cases illegal.symm.trans h
    rfl

/-- Settles O54: a reset keeps the later events and takes the reset state's `rdata`, and a transaction is performed with the
later events pending. -/
theorem eachStepTakesExactlyTheNextEvent : Obligations.EachStepTakesExactlyTheNextEvent := by
  intro s t e rest pending h
  obtain ⟨-, ⟨idle, -⟩ | ⟨rest', first, rfl⟩ | ⟨x, rest', first, performed⟩⟩ := step_cases h
  · cases pending.symm.trans idle
  · cases pending.symm.trans first
    exact ⟨rfl, fun _ => rfl⟩
  · cases pending.symm.trans first
    exact ⟨perform_port performed, nofun⟩

/-! ## Refusals (R234) -/

/-- The one refusal among the outcomes is of an illegal build. -/
theorem exec_ne_refused (i : Instr) {s : State} {r : Refusal} (legal : s.build.legal = true) :
    exec i s ≠ .refused r := by
  intro h
  cases exec_outcome i s with
  | answered t eq => cases eq.symm.trans h
  | unwrittenCell n _ _ _ eq => cases eq.symm.trans h
  | unwrittenSlot b k _ _ _ _ eq => cases eq.symm.trans h
  | refusedBuild illegal _ => exact illegal legal

/-- A step of a legal build is never refused. -/
theorem step_ne_refused {s : State} {r : Refusal} (legal : s.build.legal = true) : step s ≠ .refused r := by
  rw [step_eq_handleEvent legal, handleEvent]
  split
  · nofun
  · nofun
  · rename_i x rest _
    obtain ⟨i, -, row⟩ | ⟨e, -, illegal⟩ := perform_cases x { s with port := rest }
    · exact row ▸ exec_ne_refused i legal
    · rw [illegal]
      nofun

/-- Settles O24: a row by its outcomes, and a step by the row or the error that it performs. -/
theorem legalBuildIsNeverRefused : Obligations.LegalBuildIsNeverRefused :=
  fun _ _ legal => ⟨fun i => exec_ne_refused i legal, step_ne_refused legal⟩

theorem lutLegal_eq_false {b : Build} :
    b.lutLegal = false ↔ b.lut.length = 0 ∨ 8192 < b.lut.length ∨ 0x8000#16 ∈ b.lut := by
  have length : ¬ (1 ≤ b.T ∧ b.T ≤ 8192) ↔ b.lut.length = 0 ∨ 8192 < b.lut.length := by
    rw [Build.T]
    omega
  have words : ¬ (∀ w ∈ b.lut, w ≠ 0x8000#16) ↔ 0x8000#16 ∈ b.lut := by simp
  rw [← or_assoc, ← length, ← words, ← Classical.not_and_iff_not_or_not, ← Bool.not_eq_true]
  simp [Build.lutLegal]

theorem capLegal_eq_false {b : Build} : b.capLegal = false ↔ b.msgCap = 0 ∨ 4096 < b.msgCap := by
  rw [← Bool.not_eq_true, Build.capLegal, Bool.and_eq_true, decide_eq_true_eq, decide_eq_true_eq]
  omega

theorem step_refused {s : State} {r : Refusal} (refusal : buildRefusal s.build = some r) : step s = .refused r := by
  rw [step, refusal]

/-- Settles O25: the table is looked at first. -/
theorem illegalBuildIsRefused : Obligations.IllegalBuildIsRefused := by
  intro s
  simp only [← lutLegal_eq_false, ← capLegal_eq_false, Bool.not_eq_false]
  refine ⟨fun badLut _ => step_refused (if_pos badLut), fun goodLut badCap => step_refused ?_,
    fun badLut _ => .inl (step_refused (if_pos badLut))⟩
  rw [buildRefusal, if_neg (by simp [goodLut]), if_pos badCap]

/-! ## A running stream (20_memory.md R70; R225) -/

/-- In RUN no row changes the configuration, the message, the build or the stream constants. -/
theorem exec_running {i : Instr} {s t : State} (running : s.stream = .run) (h : exec i s = .next t) :
    SameConfiguration s t ∧ SameConstants s t := by
  cases exec_effect h
  case wroteFs free _ | wroteF0 free _ | wroteF1 free _ | wroteBaud free _ | wroteTstartMs free _
      | wroteTstopMs free _ | wroteMsgLen free _ | wroteCell free _ _ => exact absurd running free
  case started accepted _ => exact absurd running accepted.1
  all_goals
    subst t
    exact ⟨⟨rfl, rfl, rfl, rfl, rfl, rfl, rfl, rfl, fun _ => rfl⟩, ⟨rfl, rfl, rfl, rfl, rfl⟩⟩

/-- In RUN no transaction does, the illegal ones included. -/
theorem perform_running {x : Txn} {s t : State} (running : s.stream = .run) (h : perform x s = .next t) :
    SameConfiguration s t ∧ SameConstants s t := by
  obtain ⟨i, -, row⟩ | ⟨e, -, illegal⟩ := perform_cases x s
  · exact exec_running running (row.symm.trans h)
  · cases illegal.symm.trans h
    exact ⟨⟨rfl, rfl, rfl, rfl, rfl, rfl, rfl, rfl, fun _ => rfl⟩, ⟨rfl, rfl, rfl, rfl, rfl⟩⟩

/-- A step in RUN that takes no reset does not. -/
theorem step_running {s t : State} (running : s.stream = .run) (noReset : ∀ rest, s.port ≠ .reset :: rest)
    (h : step s = .next t) : SameConfiguration s t ∧ SameConstants s t := by
  obtain ⟨-, ⟨-, rfl⟩ | ⟨rest, first, -⟩ | ⟨x, rest, -, performed⟩⟩ := step_cases h
  · exact ⟨⟨rfl, rfl, rfl, rfl, rfl, rfl, rfl, rfl, fun _ => rfl⟩, .refl t⟩
  · exact absurd first (noReset rest)
  · obtain ⟨config, constants⟩ := perform_running (s := { s with port := rest }) running performed
    exact ⟨{ config with }, { constants with }⟩

/-- Settles O43: what `step_running` says, register by register. -/
theorem runningStreamIsLocked : Obligations.RunningStreamIsLocked := by
  intro s t running noReset h
  obtain ⟨config, constants⟩ := step_running running noReset h
  exact ⟨config.fs.symm, config.f0.symm, config.f1.symm, config.baud.symm, config.tstartMs.symm, config.tstopMs.symm,
    config.msgLen.symm, fun n => (config.msg n).symm, constants, config.build.symm⟩

/-- In RUN only PULL moves the counters, and only PULL and CMD_STOP change `state`. -/
theorem exec_running_counters {i : Instr} {s t : State} (running : s.stream = .run) (notPull : i ≠ .pull)
    (notStop : i ≠ .cmdStop) (h : exec i s = .next t) :
    s.stream = t.stream ∧ s.slot = t.slot ∧ s.phase = t.phase := by
  cases exec_effect h
  case started accepted _ => exact absurd running accepted.1
  case stopped row _ _ => exact absurd row notStop
  case ended row _ _ _ _ => exact absurd row notPull
  case sampled row _ _ _ _ _ _ => exact absurd row notPull
  all_goals
    subst t
    exact ⟨rfl, rfl, rfl⟩

theorem perform_running_counters {x : Txn} {s t : State} (running : s.stream = .run)
    (notPull : decode x ≠ .instr .pull) (notStop : decode x ≠ .instr .cmdStop) (h : perform x s = .next t) :
    s.stream = t.stream ∧ s.slot = t.slot ∧ s.phase = t.phase := by
  obtain ⟨i, decoded, row⟩ | ⟨e, -, illegal⟩ := perform_cases x s
  · exact exec_running_counters running (fun pull => notPull (pull ▸ decoded)) (fun stop => notStop (stop ▸ decoded))
      (row.symm.trans h)
  · cases illegal.symm.trans h
    exact ⟨rfl, rfl, rfl⟩

/-- Settles O51: the configuration and the constants are locked, and only PULL and CMD_STOP move the rest. -/
theorem otherTransactionsLeaveTheStreamAlone : Obligations.OtherTransactionsLeaveTheStreamAlone := by
  intro x s t running notPull notStop h
  obtain ⟨config, constants⟩ := perform_running running h
  obtain ⟨stream, slot, phase⟩ := perform_running_counters running notPull notStop h
  exact ⟨config.build, stream, config.msgLen, constants.preSlots.symm, constants.postSlots.symm, constants.endSlot.symm,
    constants.step0.symm, constants.step1.symm, slot, phase, config.msg⟩

/-! ## A written message (R220; 20_memory.md R73) -/

/-- A data slot is a bit of a message byte (42_bit_framer.md R174). -/
theorem dataSlot_eq_some {s : State} {i b k : Nat} (slot : dataSlot s i = some (b, k)) :
    b < s.msgLen.toNat ∧ k ≤ 7 ∧ i = s.preSlots.toNat + 10 * b + (k + 1) := by
  simp only [dataSlot] at slot
  split at slot
  · cases slot
    omega
  · cases slot

/-- With every cell below MSG_CAP written, every row answers from every state with the invariant. -/
theorem exec_answers_of_written {s : State} (inv : BlockInv s)
    (written : ∀ n, n < s.build.msgCap → (s.msg.read n).isSome) (i : Instr) : ∃ t, exec i s = .next t := by
  have cell {n : Nat} (inside : n < s.build.msgCap) (unwritten : s.msg.read n = none) : False := by
    simpa [unwritten] using written n inside
  cases exec_outcome i s with
  | answered t eq => exact ⟨t, eq⟩
  | unwrittenCell n _ inside unwritten _ => exact (cell inside unwritten).elim
  | unwrittenSlot b k _ running slot unwritten _ =>
    have inside := Nat.lt_of_lt_of_le (dataSlot_eq_some slot).1 (inv.running running).1
    exact (cell inside unwritten).elim
  | refusedBuild illegal _ => exact absurd inv.build_legal illegal

/-- Settles O52: a row answers by the lemma above, an illegal word by its record, and a reset and an idle port always. -/
theorem withTheMessageWrittenTheBlockNeverStops : Obligations.WithTheMessageWrittenTheBlockNeverStops := by
  intro s inv written
  have legal := inv.build_legal
  cases pending : s.port with
  | nil => exact ⟨s, step_idle legal pending⟩
  | cons event rest =>
    cases event with
    | reset => exact ⟨_, step_reset legal pending⟩
    | txn x =>
      rw [step_txn legal pending]
      obtain ⟨i, -, row⟩ | ⟨e, -, illegal⟩ := perform_cases x { s with port := rest }
      · rw [row]
        exact exec_answers_of_written (inv.withPort rest) written i
      · exact ⟨_, illegal⟩

end Sys2Proof.Machine
end

section
/-! Proofs of 42_bit_framer.md and 43_nco_lut.md: the frame of a byte (R177), the sample of a slot (R190 to R197), and whole
streams of pulls (R158, R198, R261). -/

namespace Sys2Proof.Machine

/-! ## The frame of a byte (R174, R177 (b)) -/

/-- Settles O22: the start bit, the eight data bits by one lemma, and the stop bit. -/
theorem frameCarriesItsByte : Obligations.FrameCarriesItsByte := by
  intro s b v timeline byte written
  have start : frame s (s.preSlots.toNat + 10 * b + 0) = .slot false false :=
    (frame_slotOfByte timeline byte (by decide)).trans (frameSlot_start _ _ b)
  have stop : frame s (s.preSlots.toNat + 10 * b + 9) = .slot true false :=
    (frame_slotOfByte timeline byte (by decide)).trans (frameSlot_stop _ _ b)
  have data (k : Nat) (first : 1 ≤ k) (last : k ≤ 8) :
      frame s (s.preSlots.toNat + 10 * b + k) = .slot (v.getLsbD (k - 1)) false := by
    rw [frame_slotOfByte timeline byte (by omega), frameSlot_data _ _ b first last]
    exact dataBit_written (by omega) byte written
  have slots : List.range 10 = [0, 1, 2, 3, 4, 5, 6, 7, 8, 9] := rfl
  simp only [slots, List.map_cons, List.map_nil, start, stop, data, Nat.reduceLeDiff, Nat.reduceSub]

/-! ## The sample of a slot (R190 to R197) -/

/-- Before END a pull of a readable slot is the sample of the slot's bit on the timeline. -/
theorem exec_pull_sample {s : State} (legal : s.build.legal = true) (running : s.stream = .run)
    (before : s.slot.toNat < s.endSlot.toNat) (readable : SlotReadable s s.slot.toNat) :
    ∃ (w : Sample) (idx : Word),
      idx.toNat = (s.phase.toNat + timelineStep s s.slot.toNat) % s.build.M ∧
      lutRead s.build (tableIndex idx.toNat) = some w ∧
      exec .pull s = .next { s with slot := s.slot + 1, phase := idx, rdata := sampleResponse w } := by
  have framed := (frame_before_end s _ before).1 readable
  obtain ⟨w, idx, phase, entry, produced⟩ := produceSample_legal legal (timelineBit s s.slot.toNat)
  rw [stepFor_toNat] at phase
  exact ⟨w, idx, phase, entry, (exec_pull_bit running framed).trans produced⟩

/-- SLOT below END_SLOT has room for one more. -/
theorem slot_succ_toNat {s : State} (before : s.slot.toNat < s.endSlot.toNat) :
    (s.slot + 1).toNat = s.slot.toNat + 1 := by
  have bound := s.endSlot.isLt
  rw [BitVec.toNat_add]
  exact Nat.mod_eq_of_lt (by simp; omega)

/-- Settles O20: the sample of the slot's bit, its response by its number, and SLOT without wrapping. -/
theorem pullProducesTheTimelineSample : Obligations.PullProducesTheTimelineSample := by
  intro s legal running before readable
  obtain ⟨w, idx, phase, entry, pull⟩ := exec_pull_sample legal running before readable
  rw [sampleResponse_eq] at pull
  exact ⟨s.slot + 1, idx, w, slot_succ_toNat before, phase, entry, pull⟩

/-- A legal table has no word -32768, so each of its words has its negative (10_state.md R35). -/
theorem lut_toInt_bounds {b : Build} {w : Sample} (legal : b.legal = true) (listed : w ∈ b.lut) :
    -32767 ≤ w.toInt ∧ w.toInt ≤ 32767 := by
  have allowed : w ≠ 0x8000#16 := by
    rintro rfl
    have illegal := lutLegal_eq_false.mpr (.inr (.inr listed))
    simp [Build.legal, illegal] at legal
  have lower := BitVec.le_toInt w
  have upper := BitVec.toInt_lt (x := w)
  have notLowest : w.toInt ≠ -32768 := fun lowest => allowed (BitVec.eq_of_toInt_eq lowest)
  omega

/-- Settles O46: a pull that leaves RUN running is a produced sample, and that is a word the table answered. -/
theorem samplesAreTableWordsInRange : Obligations.SamplesAreTableWordsInRange := by
  intro s t legal h running stillRunning
  obtain ⟨idle, -⟩ | ⟨ended, -⟩ | ⟨-, -, rfl⟩ | ⟨-, bit, -, produced⟩ := execPull_cases h
  · cases running.symm.trans idle
  · cases running.symm.trans ended
  · cases stillRunning
  · obtain ⟨w, entry, rfl⟩ := produceSample_cases produced
    have listed := lutRead_mem entry
    exact ⟨w, listed, sampleResponse_eq w, lut_toInt_bounds legal listed⟩

/-! ## Runs of pulls before END (R193, R198) -/

/-- The states along a stream's pulls differ from its first in SLOT, PHASE and `rdata` only. -/
def Streamed (s t : State) : Prop := ∃ slot phase rdata, t = { s with slot, phase, rdata }

theorem Streamed.refl (s : State) : Streamed s s := ⟨s.slot, s.phase, s.rdata, rfl⟩

/-- A pull that answers before END has read its slot's cell, if the slot needs one. -/
theorem slotReadable_of_answered {s t : State} (running : s.stream = .run) (h : exec .pull s = .next t)
    (timeline : s.endSlot.toNat = s.preSlots.toNat + 10 * s.msgLen.toNat + s.postSlots.toNat) :
    SlotReadable s s.slot.toNat := by
  intro b k slot
  obtain ⟨byte, bit, place⟩ := dataSlot_eq_some slot
  cases cell : s.msg.read b with
  | some v => rfl
  | none =>
    have framed : frame s s.slot.toNat = .fault .unwrittenMsg := by
      rw [place, frame_slotOfByte timeline byte (by omega), frameSlot_data _ _ b (by omega) (by omega)]
      exact dataBit_unwritten (by omega) byte cell
    cases (exec_pull_fault running framed).symm.trans h

theorem pulls_succ {n : Nat} {s t : State} (h : pulls (n + 1) s = .next t) :
    ∃ u, exec .pull s = .next u ∧ pulls n u = .next t := by
  rw [pulls] at h
  split at h
  · exact ⟨_, ‹_›, h⟩
  · cases h
  · cases h

theorem pulls_succ_of_next {n : Nat} {s u : State} (pull : exec .pull s = .next u) : pulls (n + 1) s = pulls n u := by
  rw [pulls, pull]

/-- The step sum depends on the steps of its slots alone. -/
theorem stepSum_congr {s t : State} (same : ∀ i, timelineStep t i = timelineStep s i) (i n : Nat) :
    stepSum t i n = stepSum s i n := by
  induction n with
  | zero => rfl
  | succ n ih => rw [stepSum, stepSum, ih, same]

/-- The step sum from its first slot on, as the pulls add it up. -/
theorem stepSum_succ_left (s : State) (i n : Nat) :
    stepSum s i (n + 1) = timelineStep s i + stepSum s (i + 1) n := by
  induction n with
  | zero => simp [stepSum]
  | succ n ih =>
    have slot : i + 1 + n = i + (n + 1) := by omega
    rw [stepSum, ih, stepSum, slot, Nat.add_assoc]

/-- Pulls that answer, END not passed, count in SLOT and sum the steps of their slots in PHASE, modulo M. -/
theorem pulls_answered {n : Nat} {s t : State} (inv : BlockInv s) (running : s.stream = .run)
    (room : s.slot.toNat + n ≤ s.endSlot.toNat) (h : pulls n s = .next t) :
    Streamed s t ∧ t.slot.toNat = s.slot.toNat + n ∧
      t.phase.toNat = (s.phase.toNat + stepSum s s.slot.toNat n) % s.build.M := by
  induction n generalizing s with
  | zero =>
    cases h
    exact ⟨.refl _, rfl, (Nat.mod_eq_of_lt inv.phase_lt).symm⟩
  | succ n ih =>
    obtain ⟨u, pull, later⟩ := pulls_succ h
    have before : s.slot.toNat < s.endSlot.toNat := by omega
    have readable := slotReadable_of_answered running pull (inv.running running).2
    obtain ⟨w, idx, phase, -, sample⟩ := exec_pull_sample inv.build_legal running before readable
    have slot := slot_succ_toNat before
    cases sample.symm.trans pull
    obtain ⟨⟨_, _, _, rfl⟩, slots, sum⟩ := ih (inv.exec pull) running (by simp only [slot]; omega) later
    refine ⟨⟨_, _, _, rfl⟩, ?_, ?_⟩
    · rw [slots, slot]
      omega
    · have steps := stepSum_congr (s := s) (t := { s with slot := s.slot + 1, phase := idx, rdata := sampleResponse w })
        (fun _ => rfl) (s.slot.toNat + 1) n
      rw [sum, slot, steps, phase, Nat.mod_add_mod, stepSum_succ_left, Nat.add_assoc]

/-- Settles O47: the three registers of `pulls_answered`; `state` is among what `Streamed` keeps. -/
theorem phaseIsTheRunningSumOfSteps : Obligations.PhaseIsTheRunningSumOfSteps := by
  intro n s t inv running room h
  obtain ⟨⟨_, _, _, rfl⟩, slot, phase⟩ := pulls_answered inv running room h
  exact ⟨phase, slot, running⟩

/-- With every slot readable the pulls before END answer. -/
theorem pulls_answer {n : Nat} {s : State} (legal : s.build.legal = true) (running : s.stream = .run)
    (readable : ∀ i, SlotReadable s i) (room : s.slot.toNat + n ≤ s.endSlot.toNat) : ∃ t, pulls n s = .next t := by
  induction n generalizing s with
  | zero => exact ⟨s, rfl⟩
  | succ n ih =>
    have before : s.slot.toNat < s.endSlot.toNat := by omega
    obtain ⟨w, idx, -, -, sample⟩ := exec_pull_sample legal running before (readable _)
    rw [pulls_succ_of_next sample]
    exact ih legal running readable (by simp only [slot_succ_toNat before]; omega)

/-- Settles O48: n pulls reach slot n up to END; the pull there is a sample before END, and finds the framer done at END. -/
theorem streamHasExactlyEndSlotSamples : Obligations.StreamHasExactlyEndSlotSamples := by
  intro s inv running first written
  have legal := inv.build_legal
  have zero : s.slot.toNat = 0 := congrArg BitVec.toNat first
  have readable (i : Nat) : SlotReadable s i := fun b k slot => written b (dataSlot_eq_some slot).1
  have reached (n : Nat) (room : n ≤ s.endSlot.toNat) :
      ∃ t, pulls n s = .next t ∧ Streamed s t ∧ t.slot.toNat = n := by
    obtain ⟨t, h⟩ := pulls_answer (n := n) legal running readable (by omega)
    obtain ⟨streamed, slot, -⟩ := pulls_answered inv running (by omega) h
    exact ⟨t, h, streamed, by omega⟩
  constructor
  · intro n before
    obtain ⟨_, h, ⟨i, idx, v, rfl⟩, slot⟩ := reached n (Nat.le_of_lt before)
    obtain ⟨w, _, -, -, sample⟩ := exec_pull_sample (s := { s with slot := i, phase := idx, rdata := v }) legal running
      (slot ▸ before) (readable _)
    exact ⟨_, _, h, sample, running, sampleResponse_valid w, sampleResponse_eos w⟩
  · obtain ⟨_, h, ⟨i, idx, v, rfl⟩, slot⟩ := reached s.endSlot.toNat (Nat.le_refl _)
    have framed := frame_end (s := { s with slot := i, phase := idx, rdata := v })
      (slot ▸ inv.preSlots_le running) (Nat.le_of_eq slot.symm)
    exact ⟨_, h, BitVec.eq_of_toNat_eq slot, exec_pull_end running framed⟩

/-! ## Streams that agree (R158; 70_reset_and_hazards.md R261) -/

/-- Two results that no later pull tells apart: the same response and the same stream, or the same stop. -/
inductive SameAnswer : Result → Result → Prop
  | next {t t' : State} (same : SameStream t t') (rdata : t.rdata = t'.rdata) : SameAnswer (.next t) (.next t')
  | fault (f : Fault) : SameAnswer (.fault f) (.fault f)
  | refused (r : Refusal) : SameAnswer (.refused r) (.refused r)

/-- A sample depends on the build, the phase, the steps and the bit. -/
theorem produceSample_sameAnswer {s s' : State} (same : SameStream s s') (bit : Bool) :
    SameAnswer (produceSample bit s) (produceSample bit s') := by
  have step : s.stepFor bit = s'.stepFor bit := by simp only [State.stepFor, same.step0, same.step1]
  unfold produceSample
  simp only [same.build, same.phase, step]
  cases lutRead s'.build (tableIndex (nextPhase s'.build s'.phase (s'.stepFor bit))) with
  | none => exact .refused _
  | some w => exact .next { same with build := rfl, slot := congrArg (· + 1) same.slot, phase := rfl } rfl

/-- A pull depends on the stream alone. -/
theorem exec_pull_sameAnswer {s s' : State} (same : SameStream s s') : SameAnswer (exec .pull s) (exec .pull s') := by
  cases state : s.stream with
  | idle =>
    rw [exec_pull_idle state, exec_pull_idle (same.stream ▸ state)]
    exact .next { same with } rfl
  | done =>
    rw [exec_pull_done state, exec_pull_done (same.stream ▸ state)]
    exact .next { same with } rfl
  | run =>
    have state' : s'.stream = .run := same.stream ▸ state
    have frames : frame s' s'.slot.toNat = frame s s.slot.toNat := by
      rw [← same.slot]
      exact (frame_congr same.preSlots same.msgLen same.endSlot same.msg _).symm
    cases framed : frame s s.slot.toNat with
    | fault f =>
      rw [exec_pull_fault state framed, exec_pull_fault state' (frames.trans framed)]
      exact .fault f
    | slot bit ended =>
      cases ended with
      | true =>
        rw [exec_pull_end state framed, exec_pull_end state' (frames.trans framed)]
        exact .next { same with stream := rfl } rfl
      | false =>
        rw [exec_pull_bit state framed, exec_pull_bit state' (frames.trans framed)]
        exact produceSample_sameAnswer same bit

/-- Settles O50: pull by pull, each with the same answer. -/
theorem responsesDependOnlyOnTheStream : Obligations.ResponsesDependOnlyOnTheStream := by
  intro n
  induction n with
  | zero => exact fun _ _ _ => rfl
  | succ n ih =>
    intro s s' same
    have answers := exec_pull_sameAnswer same
    simp only [pullResponses]
    generalize exec .pull s = result at answers ⊢
    generalize exec .pull s' = result' at answers ⊢
    cases answers with
    | next same rdata => simp only [ih _ _ same, rdata]
    | fault f => rfl
    | refused r => rfl

/-- START makes its stream from the configuration, the message and the build alone (41_commands.md R152 to R155). -/
theorem startStream_sameStream {s s' : State} (same : SameConfiguration s s') :
    SameStream s.startStream s'.startStream := by
  obtain ⟨build, fs, f0, f1, baud, tstartMs, tstopMs, msgLen, msg⟩ := same
  constructor <;> simp [*]

/-- Settles O49: both STARTs are accepted, and their streams agree. -/
theorem streamsOfOneConfigurationAreEqual : Obligations.StreamsOfOneConfigurationAreEqual := by
  intro n s s' t t' same accepted stopped start start'
  have accepted' : StartAccepted s' := by
    obtain ⟨-, rate, fits, short⟩ := accepted
    simp only [configuredEnd, same.fs, same.msgLen, same.build, same.tstartMs, same.tstopMs, same.baud] at rate fits short
    exact ⟨stopped, rate, fits, short⟩
  cases start.symm.trans (exec_cmdStart_accepted accepted)
  cases start'.symm.trans (exec_cmdStart_accepted accepted')
  exact responsesDependOnlyOnTheStream n _ _ { startStream_sameStream same with }

end Sys2Proof.Machine
end
